-- ==== Sys2Proof/Word.lean ====
section
/-! DEFINITION. The word types of the core (00_scope.md R6, R10, R11): all values are unsigned bit vectors. -/

namespace Sys2Proof

/-- One byte: a general register, a timer, a byte of any storage space (R6). -/
abbrev Byte := BitVec 8

/-- The 16-bit word: an instruction word, `PC`, `I` (R6). -/
abbrev Word := BitVec 16

/-- The 12-bit address field `NNN` (R11). -/
abbrev Addr := BitVec 12

/-- The 4-bit count field `N` (R11). -/
abbrev Nibble := BitVec 4

/-- A general register's index: every value 0..15 names a register (10_state.md R20). -/
abbrev Reg := Fin 16

/-- `VF`, the register that doubles as the flag (10_state.md R25). -/
abbrev Reg.vf : Reg := 15

end Sys2Proof
end

