-- ==== Sys2Proof/Config.lean ====
section
/-! DEFINITION. What an implementation fixes at construction (00_scope.md R8, R9), and the free value of the spec. -/

namespace Sys2Proof

/-- The construction parameters of the core: the option `cfg_legacy` (00_scope.md R8, 10_state.md R36) and the glyph table
`FONT` (R9, R40, decision D1). The record stands in `State.cfg`, so that every statement about every state holds for both
values of the option and for every table (logs 1 and 2). -/
structure Config where
  legacy : Bool
  font   : Vector Byte 80
deriving DecidableEq, Repr

/-- The random byte of CXNN where the host presents none: a draw under no law (43_alu.md R133, decision D9). FREE VALUE:
nothing constrains it, and nothing can evaluate it (log 3). The argument numbers the executed Steps, so that every Step has
a byte of its own. -/
opaque Config.freeRnd : Nat → Byte

end Sys2Proof
end

