-- ==== Sys2Proof/Syntax.lean ====
section
/-! DEFINITION. The instructions: one constructor per row of spec/opcode_table.json, in the table's order (30_encoding.md R75). -/

namespace Sys2Proof

/-- The 35 instructions of the table and the catch-all `UNHANDLED` (30_encoding.md R73, R75). Fields have exactly the widths
of the encoding's fields (R74), so no operand is out of range. -/
inductive Instr where
  | cls                                   -- 00E0  CLS
  | ret                                   -- 00EE  RET
  | sys (nnn : Addr)                      -- 0NNN  SYS addr
  | jp (nnn : Addr)                       -- 1NNN  JP addr
  | call (nnn : Addr)                     -- 2NNN  CALL addr
  | seByte (x : Reg) (nn : Byte)          -- 3XNN  SE Vx, byte
  | sneByte (x : Reg) (nn : Byte)         -- 4XNN  SNE Vx, byte
  | seReg (x y : Reg)                     -- 5XY0  SE Vx, Vy
  | ldByte (x : Reg) (nn : Byte)          -- 6XNN  LD Vx, byte
  | addByte (x : Reg) (nn : Byte)         -- 7XNN  ADD Vx, byte
  | ldReg (x y : Reg)                     -- 8XY0  LD Vx, Vy
  | orReg (x y : Reg)                     -- 8XY1  OR Vx, Vy
  | andReg (x y : Reg)                    -- 8XY2  AND Vx, Vy
  | xorReg (x y : Reg)                    -- 8XY3  XOR Vx, Vy
  | addReg (x y : Reg)                    -- 8XY4  ADD Vx, Vy
  | subReg (x y : Reg)                    -- 8XY5  SUB Vx, Vy
  | shr (x y : Reg)                       -- 8XY6  SHR Vx   (y is decoded, V[y] is not read)
  | subnReg (x y : Reg)                   -- 8XY7  SUBN Vx, Vy
  | shl (x y : Reg)                       -- 8XYE  SHL Vx   (y is decoded, V[y] is not read)
  | sneReg (x y : Reg)                    -- 9XY0  SNE Vx, Vy
  | ldI (nnn : Addr)                      -- ANNN  LD I, addr
  | jpV0 (nnn : Addr)                     -- BNNN  JP V0, addr
  | rnd (x : Reg) (nn : Byte)             -- CXNN  RND Vx, byte
  | drw (x y : Reg) (n : Nibble)          -- DXYN  DRW Vx, Vy, nibble
  | skp (x : Reg)                         -- EX9E  SKP Vx
  | sknp (x : Reg)                        -- EXA1  SKNP Vx
  | ldVxDT (x : Reg)                      -- FX07  LD Vx, DT
  | ldVxK (x : Reg)                       -- FX0A  LD Vx, K
  | ldDTVx (x : Reg)                      -- FX15  LD DT, Vx
  | ldSTVx (x : Reg)                      -- FX18  LD ST, Vx
  | addIVx (x : Reg)                      -- FX1E  ADD I, Vx
  | ldFVx (x : Reg)                       -- FX29  LD F, Vx
  | ldBVx (x : Reg)                       -- FX33  LD B, Vx
  | storeRegs (x : Reg)                   -- FX55  LD [I], Vx
  | loadRegs (x : Reg)                    -- FX65  LD Vx, [I]
  | unhandled (op : Word)                 -- any other word  UNHANDLED
deriving DecidableEq, Repr

end Sys2Proof
end

