-- ==== Sys2Proof/WellFormed.lean ====
section
/-! DEFINITION. Which instruction terms stand for an instruction word (30_encoding.md R73, R78, R79). -/

namespace Sys2Proof

/-- `SYS addr` is every word of group 0 but 0x00E0 and 0x00EE (30_encoding.md R79). -/
def sysOperandOk (nnn : Addr) : Bool := nnn ≠ 0x0E0#12 && nnn ≠ 0x0EE#12

/-- The unhandled words, listed as 30_encoding.md R78 lists them: groups 5 and 9 with a low nibble other than 0, group 8 with
a low nibble in 8..0xD or 0xF, group 0xE with a low byte other than 0x9E and 0xA1, group 0xF with a low byte other than the nine. -/
def unhandledWord (op : Word) : Bool :=
  let g := op.toNat / 4096
  let n := op.toNat % 16
  let nn := op.toNat % 256
  (g == 5 && n != 0)
    || (g == 8 && ([8, 9, 10, 11, 12, 13, 15] : List Nat).contains n)
    || (g == 9 && n != 0)
    || (g == 14 && nn != 0x9E && nn != 0xA1)
    || (g == 15 && !([0x07, 0x0A, 0x15, 0x18, 0x1E, 0x29, 0x33, 0x55, 0x65] : List Nat).contains nn)

/-- An instruction term is well formed when it is the meaning of some word: the two checks above, and no check on an
instruction whose every operand value is encodable (R74). -/
def Instr.wellFormed : Instr → Bool
  | .sys nnn => sysOperandOk nnn
  | .unhandled op => unhandledWord op
  | .cls => true
  | .ret => true
  | .jp _ => true
  | .call _ => true
  | .seByte _ _ => true
  | .sneByte _ _ => true
  | .seReg _ _ => true
  | .ldByte _ _ => true
  | .addByte _ _ => true
  | .ldReg _ _ => true
  | .orReg _ _ => true
  | .andReg _ _ => true
  | .xorReg _ _ => true
  | .addReg _ _ => true
  | .subReg _ _ => true
  | .shr _ _ => true
  | .subnReg _ _ => true
  | .shl _ _ => true
  | .sneReg _ _ => true
  | .ldI _ => true
  | .jpV0 _ => true
  | .rnd _ _ => true
  | .drw _ _ _ => true
  | .skp _ => true
  | .sknp _ => true
  | .ldVxDT _ => true
  | .ldVxK _ => true
  | .ldDTVx _ => true
  | .ldSTVx _ => true
  | .addIVx _ => true
  | .ldFVx _ => true
  | .ldBVx _ => true
  | .storeRegs _ => true
  | .loadRegs _ => true

end Sys2Proof
end

