-- ==== Sys2Proof/Decode.lean ====
section
/-! DEFINITION. The decoder, total on any bytes (30_encoding.md R70 to R79), the encoder, and the opcode map as rows of mask
and match (R77). -/

namespace Sys2Proof

/-! ## Fields of the instruction word (00_scope.md R11) -/

/-- `G = op[15:12]`, the primary group. -/
def opG (op : Word) : Nibble := op.extractLsb' 12 4
/-- `X = op[11:8]`, a register index. -/
def opX (op : Word) : Reg := (op.extractLsb' 8 4).toFin
/-- `Y = op[7:4]`, a register index. -/
def opY (op : Word) : Reg := (op.extractLsb' 4 4).toFin
/-- `N = op[3:0]`. -/
def opN (op : Word) : Nibble := op.extractLsb' 0 4
/-- `NN = op[7:0]`. -/
def opNN (op : Word) : Byte := op.extractLsb' 0 8
/-- `NNN = op[11:0]`. -/
def opNNN (op : Word) : Addr := op.extractLsb' 0 12

/-! ## Decoding -/

/-- Group 8: the low nibble selects (30_encoding.md R73 (3)). -/
def decodeGroup8 (op : Word) : Instr :=
  match (opN op).toNat with
  | 0 => .ldReg (opX op) (opY op)
  | 1 => .orReg (opX op) (opY op)
  | 2 => .andReg (opX op) (opY op)
  | 3 => .xorReg (opX op) (opY op)
  | 4 => .addReg (opX op) (opY op)
  | 5 => .subReg (opX op) (opY op)
  | 6 => .shr (opX op) (opY op)
  | 7 => .subnReg (opX op) (opY op)
  | 14 => .shl (opX op) (opY op)
  | _ => .unhandled op

/-- Group 0xE: the low byte selects (30_encoding.md R73 (3)). -/
def decodeGroupE (op : Word) : Instr :=
  if opNN op = 0x9E then .skp (opX op)
  else if opNN op = 0xA1 then .sknp (opX op)
  else .unhandled op

/-- Group 0xF: the low byte selects (30_encoding.md R73 (3)). -/
def decodeGroupF (op : Word) : Instr :=
  if opNN op = 0x07 then .ldVxDT (opX op)
  else if opNN op = 0x0A then .ldVxK (opX op)
  else if opNN op = 0x15 then .ldDTVx (opX op)
  else if opNN op = 0x18 then .ldSTVx (opX op)
  else if opNN op = 0x1E then .addIVx (opX op)
  else if opNN op = 0x29 then .ldFVx (opX op)
  else if opNN op = 0x33 then .ldBVx (opX op)
  else if opNN op = 0x55 then .storeRegs (opX op)
  else if opNN op = 0x65 then .loadRegs (opX op)
  else .unhandled op

/-- The decoder: total, from the 65536 words to the 35 instructions and `UNHANDLED` (30_encoding.md R73). -/
def decode (op : Word) : Instr :=
  match (opG op).toNat with
  | 0 => if op = 0x00E0 then .cls else if op = 0x00EE then .ret else .sys (opNNN op)
  | 1 => .jp (opNNN op)
  | 2 => .call (opNNN op)
  | 3 => .seByte (opX op) (opNN op)
  | 4 => .sneByte (opX op) (opNN op)
  | 5 => if opN op = 0 then .seReg (opX op) (opY op) else .unhandled op
  | 6 => .ldByte (opX op) (opNN op)
  | 7 => .addByte (opX op) (opNN op)
  | 8 => decodeGroup8 op
  | 9 => if opN op = 0 then .sneReg (opX op) (opY op) else .unhandled op
  | 10 => .ldI (opNNN op)
  | 11 => .jpV0 (opNNN op)
  | 12 => .rnd (opX op) (opNN op)
  | 13 => .drw (opX op) (opY op) (opN op)
  | 14 => decodeGroupE op
  | _ => decodeGroupF op

/-- Why a list of bytes holds no instruction: the only reason is that it ends before the second byte (30_encoding.md R70: a
decoder always consumes exactly two bytes, and no word is refused). -/
inductive DecodeError where
  | truncated
deriving DecidableEq, Repr

/-- The instruction word of two bytes, the byte at the lower address in bits 15:8 (20_memory.md R54). -/
def wordOfBytes (hi lo : Byte) : Word := hi ++ lo

/-- The first instruction of a list of bytes, with the rest of the list. -/
def decodeBytes : List Byte → Except DecodeError (Instr × List Byte)
  | hi :: lo :: rest => .ok (decode (wordOfBytes hi lo), rest)
  | [_] => .error .truncated
  | [] => .error .truncated

/-! ## Encoding (30_encoding.md R71, R75) -/

/-- Format `A`: group and address. -/
def wordA (g : Nibble) (nnn : Addr) : Word := g ++ nnn
/-- Format `RI`: group, register, byte. Format `RS` is the same layout with a fixed selector byte. -/
def wordRI (g : Nibble) (x : Reg) (nn : Byte) : Word := g ++ (BitVec.ofFin x : Nibble) ++ nn
/-- Formats `RR` and `RRN`: group, two registers, selector nibble or count. -/
def wordRR (g : Nibble) (x y : Reg) (n : Nibble) : Word :=
  g ++ (BitVec.ofFin x : Nibble) ++ (BitVec.ofFin y : Nibble) ++ n

/-- The word of a well-formed instruction, row by row of the table of 30_encoding.md R75. -/
def encode : Instr → Word
  | .cls => 0x00E0
  | .ret => 0x00EE
  | .sys nnn => wordA 0x0 nnn
  | .jp nnn => wordA 0x1 nnn
  | .call nnn => wordA 0x2 nnn
  | .seByte x nn => wordRI 0x3 x nn
  | .sneByte x nn => wordRI 0x4 x nn
  | .seReg x y => wordRR 0x5 x y 0x0
  | .ldByte x nn => wordRI 0x6 x nn
  | .addByte x nn => wordRI 0x7 x nn
  | .ldReg x y => wordRR 0x8 x y 0x0
  | .orReg x y => wordRR 0x8 x y 0x1
  | .andReg x y => wordRR 0x8 x y 0x2
  | .xorReg x y => wordRR 0x8 x y 0x3
  | .addReg x y => wordRR 0x8 x y 0x4
  | .subReg x y => wordRR 0x8 x y 0x5
  | .shr x y => wordRR 0x8 x y 0x6
  | .subnReg x y => wordRR 0x8 x y 0x7
  | .shl x y => wordRR 0x8 x y 0xE
  | .sneReg x y => wordRR 0x9 x y 0x0
  | .ldI nnn => wordA 0xA nnn
  | .jpV0 nnn => wordA 0xB nnn
  | .rnd x nn => wordRI 0xC x nn
  | .drw x y n => wordRR 0xD x y n
  | .skp x => wordRI 0xE x 0x9E
  | .sknp x => wordRI 0xE x 0xA1
  | .ldVxDT x => wordRI 0xF x 0x07
  | .ldVxK x => wordRI 0xF x 0x0A
  | .ldDTVx x => wordRI 0xF x 0x15
  | .ldSTVx x => wordRI 0xF x 0x18
  | .addIVx x => wordRI 0xF x 0x1E
  | .ldFVx x => wordRI 0xF x 0x29
  | .ldBVx x => wordRI 0xF x 0x33
  | .storeRegs x => wordRI 0xF x 0x55
  | .loadRegs x => wordRI 0xF x 0x65
  | .unhandled op => op

/-- The bytes of a word as MEM holds them: bits 15:8 at the lower address (20_memory.md R54). -/
def bytesOfWord (op : Word) : List Byte := [op.extractLsb' 8 8, op.extractLsb' 0 8]

/-! ## The opcode map as data (30_encoding.md R77) -/

/-- The instruction's mnemonic in spec/opcode_table.json, letter for letter (30_encoding.md R81). -/
def Instr.mnemonic : Instr → String
  | .cls => "CLS"
  | .ret => "RET"
  | .sys _ => "SYS_addr"
  | .jp _ => "JP_addr"
  | .call _ => "CALL_addr"
  | .seByte _ _ => "SE_Vx__byte"
  | .sneByte _ _ => "SNE_Vx__byte"
  | .seReg _ _ => "SE_Vx__Vy"
  | .ldByte _ _ => "LD_Vx__byte"
  | .addByte _ _ => "ADD_Vx__byte"
  | .ldReg _ _ => "LD_Vx__Vy"
  | .orReg _ _ => "OR_Vx__Vy"
  | .andReg _ _ => "AND_Vx__Vy"
  | .xorReg _ _ => "XOR_Vx__Vy"
  | .addReg _ _ => "ADD_Vx__Vy"
  | .subReg _ _ => "SUB_Vx__Vy"
  | .shr _ _ => "SHR_Vx"
  | .subnReg _ _ => "SUBN_Vx__Vy"
  | .shl _ _ => "SHL_Vx"
  | .sneReg _ _ => "SNE_Vx__Vy"
  | .ldI _ => "LD_I__addr"
  | .jpV0 _ => "JP_V0__addr"
  | .rnd _ _ => "RND_Vx__byte"
  | .drw _ _ _ => "DRW_Vx__Vy__nibble"
  | .skp _ => "SKP_Vx"
  | .sknp _ => "SKNP_Vx"
  | .ldVxDT _ => "LD_Vx__DT"
  | .ldVxK _ => "LD_Vx__K"
  | .ldDTVx _ => "LD_DT__Vx"
  | .ldSTVx _ => "LD_ST__Vx"
  | .addIVx _ => "ADD_I__Vx"
  | .ldFVx _ => "LD_F__Vx"
  | .ldBVx _ => "LD_B__Vx"
  | .storeRegs _ => "LD__I___Vx"
  | .loadRegs _ => "LD_Vx___I"
  | .unhandled _ => "UNHANDLED"

/-- One row of spec/opcode_table.json: `op` selects it when `op &&& mask = value`. -/
structure OpcodeRow where
  mnemonic : String
  mask     : Word
  value    : Word
deriving DecidableEq, Repr

/-- The rows with a group or whole-word mask. -/
def opcodeRowsByGroup : List OpcodeRow :=
  [⟨"CLS", 0xFFFF, 0x00E0⟩, ⟨"RET", 0xFFFF, 0x00EE⟩, ⟨"SYS_addr", 0xF000, 0x0000⟩, ⟨"JP_addr", 0xF000, 0x1000⟩,
   ⟨"CALL_addr", 0xF000, 0x2000⟩, ⟨"SE_Vx__byte", 0xF000, 0x3000⟩, ⟨"SNE_Vx__byte", 0xF000, 0x4000⟩,
   ⟨"LD_Vx__byte", 0xF000, 0x6000⟩, ⟨"ADD_Vx__byte", 0xF000, 0x7000⟩, ⟨"LD_I__addr", 0xF000, 0xA000⟩,
   ⟨"JP_V0__addr", 0xF000, 0xB000⟩, ⟨"RND_Vx__byte", 0xF000, 0xC000⟩, ⟨"DRW_Vx__Vy__nibble", 0xF000, 0xD000⟩]

/-- The rows with a selector nibble. -/
def opcodeRowsByNibble : List OpcodeRow :=
  [⟨"SE_Vx__Vy", 0xF00F, 0x5000⟩, ⟨"LD_Vx__Vy", 0xF00F, 0x8000⟩, ⟨"OR_Vx__Vy", 0xF00F, 0x8001⟩,
   ⟨"AND_Vx__Vy", 0xF00F, 0x8002⟩, ⟨"XOR_Vx__Vy", 0xF00F, 0x8003⟩, ⟨"ADD_Vx__Vy", 0xF00F, 0x8004⟩,
   ⟨"SUB_Vx__Vy", 0xF00F, 0x8005⟩, ⟨"SHR_Vx", 0xF00F, 0x8006⟩, ⟨"SUBN_Vx__Vy", 0xF00F, 0x8007⟩,
   ⟨"SHL_Vx", 0xF00F, 0x800E⟩, ⟨"SNE_Vx__Vy", 0xF00F, 0x9000⟩]

/-- The rows with a selector byte. -/
def opcodeRowsByByte : List OpcodeRow :=
  [⟨"SKP_Vx", 0xF0FF, 0xE09E⟩, ⟨"SKNP_Vx", 0xF0FF, 0xE0A1⟩, ⟨"LD_Vx__DT", 0xF0FF, 0xF007⟩,
   ⟨"LD_Vx__K", 0xF0FF, 0xF00A⟩, ⟨"LD_DT__Vx", 0xF0FF, 0xF015⟩, ⟨"LD_ST__Vx", 0xF0FF, 0xF018⟩,
   ⟨"ADD_I__Vx", 0xF0FF, 0xF01E⟩, ⟨"LD_F__Vx", 0xF0FF, 0xF029⟩, ⟨"LD_B__Vx", 0xF0FF, 0xF033⟩,
   ⟨"LD__I___Vx", 0xF0FF, 0xF055⟩, ⟨"LD_Vx___I", 0xF0FF, 0xF065⟩]

/-- The 36 rows, the catch-all last. -/
def opcodeRows : List OpcodeRow :=
  opcodeRowsByGroup ++ opcodeRowsByNibble ++ opcodeRowsByByte ++ [⟨"UNHANDLED", 0x0000, 0x0000⟩]

/-- How many mask bits a row sets. -/
def OpcodeRow.maskBits (r : OpcodeRow) : Nat := (List.range 16).countP (fun k => r.mask.getLsbD k)

/-- Whether `op` selects the row. -/
def OpcodeRow.selects (r : OpcodeRow) (op : Word) : Bool := op &&& r.mask == r.value

/-- The mnemonics of the rows that decide `op`: those that select it with the most mask bits (R77: "the row with the most
mask bits winning"). -/
def tableMnemonics (op : Word) : List String :=
  ((opcodeRows.filter (·.selects op)).filter
    (fun r => (opcodeRows.filter (·.selects op)).all (fun q => q.maskBits ≤ r.maskBits))).map (·.mnemonic)

/-! ## The host's view of the decoder -/

/-- The instruction the decoder reads from an instruction of `nbits` bits whose bits are `w`, numbered as
spec/opcode_table.json numbers them; none where `w` does not fit one 16-bit instruction word. -/
def decodeTableWord (nbits w : Nat) : Option Instr :=
  if nbits ≤ 16 ∧ w < 65536 then
    match decodeBytes (bytesOfWord (BitVec.ofNat 16 w)) with
    | .ok (i, _) => some i
    | .error _ => none
  else none

end Sys2Proof
end

