-- ==== Sys2Proof/Machine/Font.lean ====
section
/-! DEFINITION. The customary glyph table, offered by the spec as FONT's default (10_state.md R40, decision D1). -/

namespace Sys2Proof.Machine

/-- The customary CHIP-8 font, glyph `d` at bytes `5 * d` to `5 * d + 4`, top row first (10_state.md R40). PRESUMED: the
source gives no byte, the spec supplies the table from general knowledge (log 1). Only `State.reset` takes it. -/
def customaryFont : Vector Byte 80 := #v[
  0xF0, 0x90, 0x90, 0x90, 0xF0,  0x20, 0x60, 0x20, 0x20, 0x70,  0xF0, 0x10, 0xF0, 0x80, 0xF0,  0xF0, 0x10, 0xF0, 0x10, 0xF0,
  0x90, 0x90, 0xF0, 0x10, 0x10,  0xF0, 0x80, 0xF0, 0x10, 0xF0,  0xF0, 0x80, 0xF0, 0x90, 0xF0,  0xF0, 0x10, 0x20, 0x40, 0x40,
  0xF0, 0x90, 0xF0, 0x90, 0xF0,  0xF0, 0x90, 0xF0, 0x10, 0xF0,  0xF0, 0x90, 0xF0, 0x90, 0x90,  0xE0, 0x90, 0xE0, 0x90, 0xE0,
  0xF0, 0x80, 0x80, 0x80, 0xF0,  0xE0, 0x90, 0x90, 0x90, 0xE0,  0xF0, 0x80, 0xF0, 0x80, 0xF0,  0xF0, 0x80, 0xF0, 0x80, 0x80]

end Sys2Proof.Machine
end

