-- ==== Sys2Proof/Machine/Memory.lean ====
section
/-! DEFINITION. Byte storage as plain data: one sparse representation for the four byte spaces MEM, STACK, FB and IMG
(20_memory.md R50), each with the byte an unlisted key reads as (log 6). -/

namespace Sys2Proof

/-- What an unlisted byte of MEM reads as: its value after power-on, FONT at 0x000..0x04F and 0x00 elsewhere (10_state.md R39, R46). -/
def Config.powerOnByte (c : Config) (a : Nat) : Byte := if h : a < 80 then c.font[a] else 0

end Sys2Proof

namespace Sys2Proof.Machine

/-- A storage space: the cells whose byte differs from what an unlisted key reads as. -/
abbrev Memory := List Host.Cell

/-- The byte at key `a`; `d` gives what an unlisted key reads as. -/
def Memory.read (d : Nat → Byte) : Memory → Nat → Byte
  | [], a => d a
  | c :: m, a => if a = c.1 then c.2 else Memory.read d m a

/-- Puts a cell before the first cell of a larger key. -/
def Memory.insert (a : Nat) (b : Byte) : Memory → Memory
  | [] => [(a, b)]
  | c :: m => if a < c.1 then (a, b) :: c :: m else c :: Memory.insert a b m

/-- The space with byte `b` at key `a`. Writing what an unlisted key reads as removes the cell, so the form stays canonical. -/
def Memory.write (d : Nat → Byte) (m : Memory) (a : Nat) (b : Byte) : Memory :=
  if b = d a then m.filter (fun c => c.1 != a) else Memory.insert a b (m.filter (fun c => c.1 != a))

/-- The canonical form of a space of `size` keys: keys strictly rising and in range, no cell equal to what its key would
read as if it were unlisted. -/
abbrev Memory.wf (d : Nat → Byte) (size : Nat) (m : Memory) : Prop :=
  m.Pairwise (fun c e => c.1 < e.1) ∧ ∀ c ∈ m, c.1 < size ∧ c.2 ≠ d c.1

/-- What an unlisted byte of STACK, FB and IMG reads as: 0x00, their value after power-on (10_state.md R37, R41, R43). -/
def zeroByte (_ : Nat) : Byte := 0

end Sys2Proof.Machine
end

