-- ==== Sys2Proof/Machine/State.lean ====
section
/-! DEFINITION. The state of the core as plain data, its reset value, and the reasons a step can stop (10_state.md R20 to R47). -/

namespace Sys2Proof.Machine

/-- Everything the spec gives the core (10_state.md), the construction parameters `cfg`, and the model's two fields for the
free input `rnd` of a Step. -/
structure State where
  /-- `cfg_legacy` and `FONT`: written by PowerOn only (10_state.md R36, R40). -/
  cfg         : Config
  /-- `V[0]` to `V[0xF]` (R20). -/
  v           : Vector Byte 16
  /-- `I` (R26). -/
  i           : Word
  /-- `PC` (R23). -/
  pc          : Word
  /-- `SP`, a byte index into STACK (R27). -/
  sp          : Byte
  /-- `DT`, the delay timer (R28). -/
  dt          : Byte
  /-- `ST`, the sound timer (R29). -/
  st          : Byte
  /-- `CYC`, kept modulo 100 by the Step (R30). -/
  cyc         : Nat
  /-- `running` (R31). -/
  running     : Bool
  /-- `awaitingKey` (R32). -/
  awaitingKey : Bool
  /-- `WREG`, the register a pending FX0A names (R33). -/
  wreg        : Reg
  /-- `KEYS`, bit `k` is key `k` (R34). -/
  keys        : Word
  /-- `STACK`, keys 0 to 255 (R37). -/
  stack       : Memory
  /-- `FB`, key `y * 64 + x` (R41). -/
  fb          : Memory
  /-- `IMG`, keys 0 to 0xBFF (R43). -/
  img         : Memory
  /-- `MEM`, keys 0 to 0xFFF (R38). -/
  mem         : Memory
  /-- The MODEL's field: the byte the host presents to the next Step as `rnd`, if it presents one (43_alu.md R133, log 4). -/
  rndIn       : Option Byte
  /-- The MODEL's field: how many Steps have executed, which selects the free value of `rnd` (43_alu.md R133, log 3). -/
  rndCount    : Nat
deriving DecidableEq, Repr

/-- The core raises no exception and no Step ends in a fault: 60_exceptions.md R185. So there is no fault, and nothing raises one. -/
inductive Fault
deriving DecidableEq, Repr

/-- Reasons a step is refused. -/
inductive Refusal where
  /-- Raised by no arm: every instruction has its meaning. It would be safe: the model would stop where the core goes on. -/
  | notModelled (mnemonic : String)
deriving DecidableEq, Repr

/-- The outcome of a step or of an instruction. -/
abbrev Result := Host.Outcome State Fault Refusal

/-- The run mode, a function of two flags (10_state.md R45). -/
inductive Mode where
  | run
  | await
  | stopped
deriving DecidableEq, Repr

/-- The state after `PowerOn(cfg_legacy = 0)` (10_state.md R46): every field at the value the spec states. MEM lists nothing,
so it reads as FONT at 0x000..0x04F and 0x00 elsewhere. PRESUMED: FONT is the customary table (log 1). DESIGN CHOICE: the
model's own fields `rndIn` and `rndCount` (logs 3 and 4). -/
def State.reset : State where
  cfg         := { legacy := false, font := customaryFont }
  v           := Vector.replicate 16 0
  i           := 0x0000
  pc          := 0x0200
  sp          := 0x00
  dt          := 0x00
  st          := 0x00
  cyc         := 0
  running     := true
  awaitingKey := false
  wreg        := 0
  keys        := 0
  stack       := []
  fb          := []
  img         := []
  mem         := []
  rndIn       := none
  rndCount    := 0

end Sys2Proof.Machine
end

