-- ==== Sys2Proof/Machine/Ops.lean ====
section
/-! DEFINITION. The named operations over registers, storage spaces and the Step's own parts. The core takes no exception and
returns from none (60_exceptions.md R185, R191, R192), so there is no operation for either: what stands nearest is
`State.enterAwait` (R202). -/

namespace Sys2Proof.Machine

/-! ## Registers (10_state.md R20 to R33) -/

/-- Reads `V[x]` (R20). -/
def State.getV (s : State) (x : Reg) : Byte := s.v[x]
/-- Writes `V[x]` (R20): no register is hardwired. -/
def State.setV (s : State) (x : Reg) (b : Byte) : State := { s with v := s.v.set x b }
/-- Writes `PC`, all 16 bits (R24). -/
def State.setPC (s : State) (a : Word) : State := { s with pc := a }
/-- Writes `I`, all 16 bits (R26). -/
def State.setI (s : State) (a : Word) : State := { s with i := a }
/-- Writes `SP` (R27). -/
def State.setSP (s : State) (b : Byte) : State := { s with sp := b }
/-- Writes `DT` (R28). -/
def State.setDT (s : State) (b : Byte) : State := { s with dt := b }
/-- Writes `ST` (R29). -/
def State.setST (s : State) (b : Byte) : State := { s with st := b }
/-- Writes `CYC` (R30). -/
def State.setCyc (s : State) (n : Nat) : State := { s with cyc := n }
/-- Opens the wait for a key: `awaitingKey <- 1; WREG <- x` (R32, R33). -/
def State.enterAwait (s : State) (x : Reg) : State := { s with awaitingKey := true, wreg := x }
/-- Ends the wait for a key: `awaitingKey <- 0` (R32). -/
def State.leaveAwait (s : State) : State := { s with awaitingKey := false }

/-- The run mode (R45). -/
def State.mode (s : State) : Mode :=
  if s.running then (if s.awaitingKey then .await else .run) else .stopped

/-! ## Storage spaces: every address is reduced modulo the size of its space (20_memory.md R51 to R53) -/

/-- `MemRead(a, 1)` (00_scope.md R13, R51). -/
def State.memRead (s : State) (a : Nat) : Byte := Memory.read s.cfg.powerOnByte s.mem (a % 4096)
/-- `MemWrite(a, 1, b)` (00_scope.md R13, R51). -/
def State.memWrite (s : State) (a : Nat) (b : Byte) : State :=
  { s with mem := Memory.write s.cfg.powerOnByte s.mem (a % 4096) b }
/-- `StackRead(k)` (00_scope.md R13, R52). -/
def State.stackRead (s : State) (k : Nat) : Byte := Memory.read zeroByte s.stack (k % 256)
/-- `StackWrite(k, b)` (00_scope.md R13, R52). -/
def State.stackWrite (s : State) (k : Nat) (b : Byte) : State :=
  { s with stack := Memory.write zeroByte s.stack (k % 256) b }
/-- The linear index `y * 64 + x` of the pixel in column `x`, row `y`, both wrapped (10_state.md R41, R53). -/
def pixelIndex (x y : Nat) : Nat := (y % 32) * 64 + x % 64
/-- `FB[y][x]` of a framebuffer (R41). -/
def pixelOf (fb : Memory) (x y : Nat) : Byte := Memory.read zeroByte fb (pixelIndex x y)
/-- `FB[y][x] <- b` (R41). -/
def setPixel (fb : Memory) (x y : Nat) (b : Byte) : Memory := Memory.write zeroByte fb (pixelIndex x y) b
/-- `FB[y][x]` (R41). -/
def State.pixel (s : State) (x y : Nat) : Byte := pixelOf s.fb x y
/-- Replaces the framebuffer. -/
def State.setFB (s : State) (fb : Memory) : State := { s with fb := fb }
/-- `IMG[j]` (10_state.md R43). -/
def State.imageByte (s : State) (j : Nat) : Byte := Memory.read zeroByte s.img j
/-- `KEYS[k]`: key `k` is pressed (10_state.md R34). -/
def State.keyPressed (s : State) (k : Nat) : Bool := s.keys.getLsbD k

/-! ## Call stack (41_control_flow.md R100) -/

/-- `Push(v)`: the high byte at `STACK[SP]`, the low byte at `STACK[SP + 1]`, then `SP + 2` modulo 256. -/
def State.push (s : State) (a : Word) : State :=
  ((s.stackWrite s.sp.toNat (a.extractLsb' 8 8)).stackWrite (s.sp.toNat + 1) (a.extractLsb' 0 8)).setSP (s.sp + 2)

/-- The word `Pop()` returns: that of the slot below `SP`. -/
def State.popped (s : State) : Word := s.stackRead (s.sp - 2).toNat ++ s.stackRead ((s.sp - 2).toNat + 1)

/-- The state after `Pop()`: `SP - 2` modulo 256; the popped bytes stay in place (R101). -/
def State.dropSlot (s : State) : State := s.setSP (s.sp - 2)

/-! ## Skips (42_skips.md R110) -/

/-- `skip` when the condition holds: `PC <- (PC + 2) mod 65536` on top of the pre-advance. -/
def State.skipIf (s : State) (c : Bool) : State := if c then s.setPC (s.pc + 2) else s

/-! ## The parts of a Step (40_step_cycle.md R90 to R94) -/

/-- The gate is open: the Step is a no-op if `running` is false or `awaitingKey` is true (R91). -/
def State.gateOpen (s : State) : Bool := s.running && !s.awaitingKey

/-- The fetched word: the bytes at `PC` and `PC + 1`, big-endian (R92, 20_memory.md R54). -/
def State.fetchWord (s : State) : Word := wordOfBytes (s.memRead s.pc.toNat) (s.memRead (s.pc.toNat + 1))

/-- The pre-advance `PC <- (PC + 2) mod 65536` (R92). -/
def State.preAdvance (s : State) : State := s.setPC (s.pc + 2)

/-- One timer's share of the tick: decrement by 1 if nonzero (60_exceptions.md R196). -/
def decTimer (b : Byte) : Byte := if b = 0 then 0 else b - 1

/-- `Tick()` (60_exceptions.md R196). -/
def State.tick (s : State) : State := (s.setDT (decTimer s.dt)).setST (decTimer s.st)

/-- The cycle count and the tick: `CYC + 10`, and at 100 or more `CYC - 100` and `Tick()` (R90, R94, 00_scope.md R7).
DEDUCED: a `CYC` outside 0..99 is unreachable and follows the same pseudocode (log 7). -/
def State.countCycle (s : State) : State :=
  if s.cyc + 10 ≥ 100 then (s.setCyc (s.cyc + 10 - 100)).tick else s.setCyc (s.cyc + 10)

/-- The `rnd` of the present Step (43_alu.md R133): the byte the host presents, or the free value of this Step. -/
def State.rndByte (s : State) : Byte := s.rndIn.getD (Config.freeRnd s.rndCount)

/-- Ends a Step's input: the presented byte is used up and the next Step has a free value of its own (logs 3 and 4). -/
def State.nextRnd (s : State) : State := { s with rndIn := none, rndCount := s.rndCount + 1 }

/-- What follows the instruction in an executed Step: the count and the tick (R94), and the end of the Step's input. -/
def State.endStep (s : State) : State := s.countCycle.nextRnd

end Sys2Proof.Machine
end

