-- ==== Sys2Proof/Machine/Flags.lean ====
section
/-! DEFINITION. The flag computations: what each flag-writing instruction puts into VF (10_state.md R25). DXYN's collision flag
is computed where its pixels are (Machine/Display.lean). -/

namespace Sys2Proof.Machine

/-- A flag as VF holds it: 1 or 0 (R25). -/
def flagByte (c : Bool) : Byte := if c then 1 else 0

/-- The carry of 8XY4: the 9-bit sum exceeded 255 (43_alu.md R128). -/
def addCarry (a b : Byte) : Bool := 255 < a.toNat + b.toNat

/-- No borrow: the minuend is greater than or equal to the subtrahend (43_alu.md R129, R131). -/
def noBorrow (minuend subtrahend : Byte) : Bool := subtrahend.toNat ≤ minuend.toNat

/-- The bit 8XY6 shifts out: bit 0 before the shift (43_alu.md R130). -/
def shiftOutLow (a : Byte) : Bool := a.getLsbD 0

/-- The bit 8XYE shifts out: bit 7 before the shift (43_alu.md R132). -/
def shiftOutHigh (a : Byte) : Bool := a.getLsbD 7

/-- Writes VF as a flag (R25). -/
def State.setFlag (s : State) (c : Bool) : State := s.setV Reg.vf (flagByte c)

end Sys2Proof.Machine
end

