-- ==== Sys2Proof/Machine/Operands.lean ====
section
/-! DEFINITION. Operand forms: immediates, effective address, key index, jump offset, glyph address, digits, sprite bits. -/

namespace Sys2Proof.Machine

/-- `zext_16(NNN)`: an address as it is written to `PC` or `I` (30_encoding.md R74). -/
def addrWord (nnn : Addr) : Word := nnn.setWidth 16

/-- The effective address `(I + k) mod 4096` of byte `k` (44_index_memory.md R146). -/
def State.ea (s : State) (k : Nat) : Nat := (s.i.toNat + k) % 4096

/-- The key an instruction names: `V[x] mod 16` (46_keypad_timers.md R160). -/
def keyIndex (b : Byte) : Nat := b.toNat % 16

/-- The target of BNNN: `(NNN + V[0]) mod 4096` (41_control_flow.md R105). -/
def offsetTarget (nnn : Addr) (b : Byte) : Word := BitVec.ofNat 16 ((nnn.toNat + b.toNat) % 4096)

/-- The sum of FX1E: `(I + zext_16(V[x])) mod 65536` (44_index_memory.md R141). -/
def indexSum (i : Word) (b : Byte) : Word := i + b.setWidth 16

/-- The glyph address of FX29: `zext_16(V[x]) * 5`, with no nibble mask (44_index_memory.md R142). -/
def glyphAddr (b : Byte) : Word := BitVec.ofNat 16 (b.toNat * 5)

/-- The hundreds digit (44_index_memory.md R143). -/
def bcdHundreds (b : Byte) : Byte := BitVec.ofNat 8 (b.toNat / 100)
/-- The tens digit (44_index_memory.md R143). -/
def bcdTens (b : Byte) : Byte := BitVec.ofNat 8 (b.toNat / 10 % 10)
/-- The ones digit (44_index_memory.md R143). -/
def bcdOnes (b : Byte) : Byte := BitVec.ofNat 8 (b.toNat % 10)

/-- Sprite column `c` of a sprite byte is bit `7 - c` (45_display.md R150). PRESUMED by the spec's own decision D3 (log 10). -/
def spriteBit (b : Byte) (c : Nat) : Bool := b.getLsbD (7 - c)

/-- Sprite row `r`: the byte at `(I + r) mod 4096` (45_display.md R150, R152). -/
def State.spriteRow (s : State) (r : Nat) : Byte := s.memRead (s.ea r)

end Sys2Proof.Machine
end

