-- ==== Sys2Proof/Machine/Alu.lean ====
section
/-! DEFINITION. Register load, arithmetic, logic, shifts, random (43_alu.md R122 to R133). Operands are read before the first
write and writes stand in the row's order, so the later write to one register stands (R121). -/

namespace Sys2Proof.Machine

/-- `LD Vx, byte`: `V[X] <- NN` (R122). -/
def execLdByte (x : Reg) (nn : Byte) (s : State) : Result := .next (s.setV x nn)

/-- `ADD Vx, byte`: `V[X] <- (V[X] + NN) mod 256`, no flag (R123). -/
def execAddByte (x : Reg) (nn : Byte) (s : State) : Result := .next (s.setV x (s.getV x + nn))

/-- `LD Vx, Vy`: `V[X] <- V[Y]` (R124). -/
def execLdReg (x y : Reg) (s : State) : Result := .next (s.setV x (s.getV y))

/-- `OR Vx, Vy` (R125). -/
def execOrReg (x y : Reg) (s : State) : Result := .next (s.setV x (s.getV x ||| s.getV y))

/-- `AND Vx, Vy` (R126). -/
def execAndReg (x y : Reg) (s : State) : Result := .next (s.setV x (s.getV x &&& s.getV y))

/-- `XOR Vx, Vy` (R127). -/
def execXorReg (x y : Reg) (s : State) : Result := .next (s.setV x (s.getV x ^^^ s.getV y))

/-- `ADD Vx, Vy`: the sum to `V[X]`, then the carry to VF (R128). -/
def execAddReg (x y : Reg) (s : State) : Result :=
  .next ((s.setV x (s.getV x + s.getV y)).setFlag (addCarry (s.getV x) (s.getV y)))

/-- `SUB Vx, Vy`: the no-borrow flag to VF, then the difference to `V[X]` (R129). -/
def execSubReg (x y : Reg) (s : State) : Result :=
  .next ((s.setFlag (noBorrow (s.getV x) (s.getV y))).setV x (s.getV x - s.getV y))

/-- `SHR Vx`: bit 0 to VF, then the shifted value to `V[X]`; `V[Y]` is not read (R130). -/
def execShr (x _y : Reg) (s : State) : Result :=
  .next ((s.setFlag (shiftOutLow (s.getV x))).setV x (s.getV x >>> 1))

/-- `SUBN Vx, Vy`: the no-borrow flag of `V[Y] - V[X]` to VF, then the difference to `V[X]` (R131). -/
def execSubnReg (x y : Reg) (s : State) : Result :=
  .next ((s.setFlag (noBorrow (s.getV y) (s.getV x))).setV x (s.getV y - s.getV x))

/-- `SHL Vx`: bit 7 to VF, then the shifted value to `V[X]`; `V[Y]` is not read (R132). -/
def execShl (x _y : Reg) (s : State) : Result :=
  .next ((s.setFlag (shiftOutHigh (s.getV x))).setV x (s.getV x <<< 1))

/-- `RND Vx, byte`: `V[X] <- rnd & NN` (R133). -/
def execRnd (x : Reg) (nn : Byte) (s : State) : Result := .next (s.setV x (s.rndByte &&& nn))

end Sys2Proof.Machine
end

