-- ==== Sys2Proof/Machine/ControlFlow.lean ====
section
/-! DEFINITION. Control transfer (41_control_flow.md R101 to R105) and the no-op UNHANDLED (40_step_cycle.md R95). Every
meaning starts from the state after the pre-advance (40_step_cycle.md R92). -/

namespace Sys2Proof.Machine

/-- `RET`: `PC <- Pop()` (R101). -/
def execRet (s : State) : Result := .next (s.dropSlot.setPC s.popped)

/-- `SYS addr`: with the legacy option an absolute jump, otherwise a no-op (R102). -/
def execSys (nnn : Addr) (s : State) : Result := .next (if s.cfg.legacy then s.setPC (addrWord nnn) else s)

/-- `JP addr`: `PC <- zext_16(NNN)` (R103). -/
def execJp (nnn : Addr) (s : State) : Result := .next (s.setPC (addrWord nnn))

/-- `CALL addr`: `Push(PC); PC <- zext_16(NNN)` (R104). -/
def execCall (nnn : Addr) (s : State) : Result := .next ((s.push s.pc).setPC (addrWord nnn))

/-- `JP V0, addr`: `PC <- (NNN + V[0]) mod 4096` (R105). -/
def execJpV0 (nnn : Addr) (s : State) : Result := .next (s.setPC (offsetTarget nnn (s.getV 0)))

/-- `UNHANDLED`: nothing (40_step_cycle.md R95). -/
def execUnhandled (_op : Word) (s : State) : Result := .next s

end Sys2Proof.Machine
end

