-- ==== Sys2Proof/Machine/Display.lean ====
section
/-! DEFINITION. The framebuffer XOR-blit engine, the clear and the draw (45_display.md R150 to R152). -/

namespace Sys2Proof.Machine

/-- One lit sprite bit at column `x`, row `y`: an on pixel is turned off and counts as a collision, any other pixel is turned
on (R152). "On" is 0xFF (10_state.md R42, log 8). -/
def blitPixel (x y : Nat) (acc : Memory × Bool) : Memory × Bool :=
  if pixelOf acc.1 x y = 0xFF then (setPixel acc.1 x y 0x00, true) else (setPixel acc.1 x y 0xFF, acc.2)

/-- The first `n` columns of the sprite row `b` at `(x0, y)`, column 0 first; a 0 bit touches nothing (R152). -/
def blitRow (b : Byte) (x0 y : Nat) : Nat → Memory × Bool → Memory × Bool
  | 0, acc => acc
  | c + 1, acc =>
    if spriteBit b c then blitPixel (x0 + c) y (blitRow b x0 y c acc) else blitRow b x0 y c acc

/-- The first `n` rows of the sprite `rows` at `(x0, y0)`, row 0 first, each of 8 columns (R152). -/
def blitRows (rows : Nat → Byte) (x0 y0 : Nat) : Nat → Memory × Bool → Memory × Bool
  | 0, acc => acc
  | r + 1, acc => blitRow (rows r) x0 (y0 + r) 8 (blitRows rows x0 y0 r acc)

/-- `CLS`: every pixel off (R151). -/
def execCls (s : State) : Result := .next (s.setFB [])

/-- `DRW Vx, Vy, nibble`: coordinates, `I` and the sprite are read first, then the sprite is blitted and VF is the collision
flag (R152, 43_alu.md R121). -/
def execDrw (x y : Reg) (n : Nibble) (s : State) : Result :=
  let drawn := blitRows s.spriteRow (s.getV x).toNat (s.getV y).toNat n.toNat (s.fb, false)
  .next ((s.setFB drawn.1).setFlag drawn.2)

end Sys2Proof.Machine
end

