-- ==== Sys2Proof/Machine/IndexMemory.lean ====
section
/-! DEFINITION. The index register, BCD, and the block store and load (44_index_memory.md R140 to R146). `I` is modified by
no load or store (R146). -/

namespace Sys2Proof.Machine

/-- `for k in 0..n-1: MemWrite(I + k, 1, V[k])` (R144). -/
def storeBlock : Nat → State → State
  | 0, s => s
  | k + 1, s => (storeBlock k s).memWrite (s.ea k) (s.getV (Fin.ofNat 16 k))

/-- `for k in 0..n-1: V[k] <- MemRead(I + k, 1)` (R145). -/
def loadBlock : Nat → State → State
  | 0, s => s
  | k + 1, s => (loadBlock k s).setV (Fin.ofNat 16 k) (s.memRead (s.ea k))

/-- `LD I, addr`: `I <- zext_16(NNN)` (R140). -/
def execLdI (nnn : Addr) (s : State) : Result := .next (s.setI (addrWord nnn))

/-- `ADD I, Vx`: `I <- (I + V[X]) mod 65536`, no flag (R141). -/
def execAddIVx (x : Reg) (s : State) : Result := .next (s.setI (indexSum s.i (s.getV x)))

/-- `LD F, Vx`: `I <- V[X] * 5` (R142). -/
def execLdFVx (x : Reg) (s : State) : Result := .next (s.setI (glyphAddr (s.getV x)))

/-- `LD B, Vx`: the decimal digits of `V[X]`, hundreds first, at `I`, `I + 1`, `I + 2` (R143). -/
def execLdBVx (x : Reg) (s : State) : Result :=
  .next (((s.memWrite (s.ea 0) (bcdHundreds (s.getV x))).memWrite (s.ea 1) (bcdTens (s.getV x))).memWrite (s.ea 2)
    (bcdOnes (s.getV x)))

/-- `LD [I], Vx`: `V[0]` to `V[X]` inclusive (R144). -/
def execStoreRegs (x : Reg) (s : State) : Result := .next (storeBlock (x.val + 1) s)

/-- `LD Vx, [I]`: `V[0]` to `V[X]` inclusive (R145). -/
def execLoadRegs (x : Reg) (s : State) : Result := .next (loadBlock (x.val + 1) s)

end Sys2Proof.Machine
end

