-- ==== Sys2Proof/Machine/KeypadTimers.lean ====
section
/-! DEFINITION. Keypad and timer instructions (46_keypad_timers.md R161 to R166). -/

namespace Sys2Proof.Machine

/-- `SKP Vx`: `if KEYS[V[X] mod 16] = 1: skip` (R161). -/
def execSkp (x : Reg) (s : State) : Result := .next (s.skipIf (s.keyPressed (keyIndex (s.getV x))))

/-- `SKNP Vx`: `if KEYS[V[X] mod 16] = 0: skip` (R162). -/
def execSknp (x : Reg) (s : State) : Result := .next (s.skipIf (!s.keyPressed (keyIndex (s.getV x))))

/-- `LD Vx, K`: `awaitingKey <- 1; WREG <- X` (R163). -/
def execLdVxK (x : Reg) (s : State) : Result := .next (s.enterAwait x)

/-- `LD Vx, DT`: `V[X] <- DT` (R164). -/
def execLdVxDT (x : Reg) (s : State) : Result := .next (s.setV x s.dt)

/-- `LD DT, Vx`: `DT <- V[X]` (R165). -/
def execLdDTVx (x : Reg) (s : State) : Result := .next (s.setDT (s.getV x))

/-- `LD ST, Vx`: `ST <- V[X]` (R166). -/
def execLdSTVx (x : Reg) (s : State) : Result := .next (s.setST (s.getV x))

end Sys2Proof.Machine
end

