-- ==== Sys2Proof/Machine/Skips.lean ====
section
/-! DEFINITION. The register-compare skips (42_skips.md R111 to R114). -/

namespace Sys2Proof.Machine

/-- `SE Vx, byte`: `if V[X] = NN: skip` (R111). -/
def execSeByte (x : Reg) (nn : Byte) (s : State) : Result := .next (s.skipIf (s.getV x = nn))

/-- `SNE Vx, byte`: `if V[X] != NN: skip` (R112). -/
def execSneByte (x : Reg) (nn : Byte) (s : State) : Result := .next (s.skipIf (s.getV x ≠ nn))

/-- `SE Vx, Vy`: `if V[X] = V[Y]: skip` (R113). -/
def execSeReg (x y : Reg) (s : State) : Result := .next (s.skipIf (s.getV x = s.getV y))

/-- `SNE Vx, Vy`: `if V[X] != V[Y]: skip` (R114). -/
def execSneReg (x y : Reg) (s : State) : Result := .next (s.skipIf (s.getV x ≠ s.getV y))

end Sys2Proof.Machine
end

