-- ==== Sys2Proof/Machine/Step.lean ====
section
/-! DEFINITION. The Step, the machine's one transition (40_step_cycle.md R90), and where the host puts an instruction word. -/

namespace Sys2Proof.Machine

/-- `Step(rnd)` (R90): gate, fetch and pre-advance, decode and execute, count and tick. `rnd` is `State.rndByte` of the state.
A Step whose gate is closed changes nothing at all (R91), not even the model's fields of the input. -/
def step (s : State) : Host.Outcome State Fault Refusal :=
  if s.gateOpen then
    match exec (decode s.fetchWord) s.preAdvance with
    | .next t => .next t.endStep
    | .fault r => .fault r
    | .refused r => .refused r
  else .next s

/-- `s` with the instruction word `w` in the two bytes the next Step fetches, and the gate open so that the next Step does
fetch them (log 5). From reset only MEM changes. Every instruction of this core is 16 bits, so `nbits` adds nothing. -/
def State.withFetchWord (s : State) (_nbits w : Nat) : State :=
  let op : Word := BitVec.ofNat 16 w
  let placed := (s.memWrite s.pc.toNat (op.extractLsb' 8 8)).memWrite (s.pc.toNat + 1) (op.extractLsb' 0 8)
  { placed with running := true, awaitingKey := false }

end Sys2Proof.Machine
end

