-- ==== Sys2Proof/Machine/Transactions.lean ====
section
/-! DEFINITION. The host's transactions, the whole input alphabet of the core (47_host_interface.md R170): PowerOn, Reset,
LoadROM, Step, Run, SetKeys, ReadKeys, SetAwaitedKey, ReadAwaiting, ReadFB, and the host's own protocol over them (R177). -/

namespace Sys2Proof.Machine

/-! ## Lifecycle (70_reset_and_hazards.md R210 to R215) -/

/-- MEM after a Reset (R211, R212): the font region holds nothing but its unlisted bytes, which are FONT; the program region
holds IMG; the two regions the document does not name keep their bytes. -/
def resetMem (img mem : Memory) : Memory :=
  mem.filter (fun c => 0x050 ≤ c.1 && c.1 < 0x200)
    ++ (img.filter (fun c => c.1 < 0xC00)).map (fun c => (0x200 + c.1, c.2))
    ++ mem.filter (fun c => 0xE00 ≤ c.1)

/-- `Reset()` (R211, R212): KEYS, IMG, the configuration and the unnamed memory regions are kept. -/
def State.resetCore (s : State) : State :=
  { s with
    v := Vector.replicate 16 0
    stack := []
    dt := 0
    st := 0
    i := 0
    pc := 0x0200
    sp := 0
    running := true
    awaitingKey := false
    cyc := 0
    wreg := 0
    fb := []
    mem := resetMem s.img s.mem }

/-- The state `PowerOn` builds before its Reset (R210): all state is zero. Every byte of MEM is zero, so a font byte that
FONT gives as nonzero is listed. -/
def zeroState (c : Config) : State where
  cfg         := c
  v           := Vector.replicate 16 0
  i           := 0
  pc          := 0
  sp          := 0
  dt          := 0
  st          := 0
  cyc         := 0
  running     := false
  awaitingKey := false
  wreg        := 0
  keys        := 0
  stack       := []
  fb          := []
  img         := []
  mem         := ((List.range 80).filter (fun a => c.powerOnByte a ≠ 0)).map (fun a => (a, 0))
  rndIn       := none
  rndCount    := 0

/-- `PowerOn(cfg_legacy)` (R210), with the other construction parameter FONT beside it (10_state.md R40). -/
def State.powerOn (c : Config) : State := (zeroState c).resetCore

/-- The cells of a byte string from key `j` on. -/
def cellsFrom : Nat → List Byte → Memory
  | _, [] => []
  | j, b :: bs => if b = 0 then cellsFrom (j + 1) bs else (j, b) :: cellsFrom (j + 1) bs

/-- `IMG` for a program: byte `j` at key `j`, the remainder zero (R213). -/
def imageOf (bytes : List Byte) : Memory := cellsFrom 0 bytes

/-- `LoadROM(bytes)` (R213 to R215): the new state and whether it succeeded. More than 0xC00 bytes fail and change nothing. -/
def State.loadROM (s : State) (bytes : List Byte) : State × Bool :=
  if 0xC00 < bytes.length then (s, false) else ({ s with img := imageOf bytes }.resetCore, true)

/-! ## Steps (40_step_cycle.md R90, R96) -/

/-- `Step(rnd)` with the host presenting `rnd` (R90). A gated Step changes nothing (R91). -/
def State.stepWith (s : State) (rnd : Byte) : Result :=
  if s.gateOpen then step { s with rndIn := some rnd } else .next s

/-- `Run(n)` for the random bytes of its `n` Steps (R96): the Steps in order, nothing between them. -/
def State.run (s : State) : List Byte → Result
  | [] => .next s
  | rnd :: rest =>
    match s.stepWith rnd with
    | .next t => t.run rest
    | .fault r => .fault r
    | .refused r => .refused r

/-! ## Keypad and display (47_host_interface.md R172 to R176) -/

/-- `SetKeys(k)` (R172). -/
def State.setKeys (s : State) (k : Word) : State := { s with keys := k }

/-- `ReadKeys()` (R173). -/
def State.readKeys (s : State) : Word := s.keys

/-- `SetAwaitedKey(index)` (R174): effective only while the core waits (decision D13). -/
def State.setAwaitedKey (s : State) (index : Nat) : State :=
  if s.awaitingKey then (s.setV s.wreg (BitVec.ofNat 8 (index % 16))).leaveAwait else s

/-- `ReadAwaiting()` (R175). -/
def State.readAwaiting (s : State) : Bool := s.awaitingKey

/-- `ReadFB(x, y)` (R176). -/
def State.readFB (s : State) (x : Fin 64) (y : Fin 32) : Byte := s.pixel x y

/-! ## The input alphabet (R170) -/

/-- The transactions of R170. `powerOn` may stand anywhere in a sequence (log 18). -/
inductive Transaction where
  | powerOn (c : Config)
  | reset
  | loadROM (bytes : List Byte)
  | step (rnd : Byte)
  | run (rnds : List Byte)
  | setKeys (k : Word)
  | readKeys
  | setAwaitedKey (index : Nat)
  | readAwaiting
  | readFB (x : Fin 64) (y : Fin 32)
deriving DecidableEq, Repr

/-- What a transaction returns to the host. -/
inductive Response where
  | none
  | loaded (ok : Bool)
  | keys (k : Word)
  | awaiting (b : Bool)
  | pixel (b : Byte)
deriving DecidableEq, Repr

/-- One transaction, atomic (R98, R170): the outcome for the state. DESIGN CHOICE: R210 says that PowerOn happens once and not
what a second one would do; here it is accepted in every state, as the construction of a new core (log 18). -/
def State.transact (s : State) : Transaction → Result
  | .powerOn c => .next (State.powerOn c)
  | .reset => .next s.resetCore
  | .loadROM bytes => .next (s.loadROM bytes).1
  | .step rnd => s.stepWith rnd
  | .run rnds => s.run rnds
  | .setKeys k => .next (s.setKeys k)
  | .readKeys => .next s
  | .setAwaitedKey index => .next (s.setAwaitedKey index)
  | .readAwaiting => .next s
  | .readFB _ _ => .next s

/-- What the transaction returns, read from the state it is applied to (R170, R173, R175, R176, R187). -/
def State.response (s : State) : Transaction → Response
  | .powerOn _ => .none
  | .reset => .none
  | .loadROM bytes => .loaded (s.loadROM bytes).2
  | .step _ => .none
  | .run _ => .none
  | .setKeys _ => .none
  | .readKeys => .keys s.readKeys
  | .setAwaitedKey _ => .none
  | .readAwaiting => .awaiting s.readAwaiting
  | .readFB x y => .pixel (s.readFB x y)

/-! ## The host's protocol (47_host_interface.md R175, R177): not enforced by the core -/

/-- The first pressed index, lowest first (R175). -/
def State.firstPressed (s : State) : Option Nat := (List.range 16).find? s.keyPressed

/-- One host tick (R177): write the keys, deliver a key if one is awaited and pressed, run. -/
def State.hostTick (s : State) (k : Word) (rnds : List Byte) : Result :=
  let keyed := s.setKeys k
  let delivered := match keyed.firstPressed with
    | some j => if keyed.readAwaiting then keyed.setAwaitedKey j else keyed
    | none => keyed
  delivered.run rnds

end Sys2Proof.Machine
end

