-- ==== Sys2Proof/Machine/Ports.lean ====
section
/-! DEFINITION. The port binding where it has a meaning for transactions (47_host_interface.md R182, R183): the order in which
simultaneous requests are served, and the output and read ports. Clock, busy handshake, reset strap and the streaming of the
image into a shadow buffer are out of scope (00_scope.md R5 (h), log 14). -/

namespace Sys2Proof.Machine

/-- The request inputs asserted in one clock cycle while `busy` is 0 (R182): `romCommit` carries the committed image,
`step` the byte on `rnd`. -/
structure PortRequests where
  rst       : Bool
  romCommit : Option (List Byte)
  keysWe    : Option Word
  akeyValid : Option Nibble
  step      : Option Byte
deriving DecidableEq, Repr

/-- The requests as transactions, in the order R183 fixes: `rst`, `rom_commit`, `keys_we`, `akey_valid`, `step`. -/
def PortRequests.transactions (r : PortRequests) : List Transaction :=
  (if r.rst then [.reset] else [])
    ++ (r.romCommit.toList.map .loadROM)
    ++ (r.keysWe.toList.map .setKeys)
    ++ (r.akeyValid.toList.map (fun k => .setAwaitedKey k.toNat))
    ++ (r.step.toList.map .step)

/-- Transactions one after another, each performed to completion before the next (R170, R183). -/
def State.transactAll (s : State) : List Transaction → Result
  | [] => .next s
  | t :: ts =>
    match s.transact t with
    | .next u => u.transactAll ts
    | .fault r => .fault r
    | .refused r => .refused r

/-- Serves the requests of one clock cycle (R183). -/
def State.serve (s : State) (r : PortRequests) : Result := s.transactAll r.transactions

/-- `fb_data` at the read address `fb_addr`, which is `y * 64 + x` (R182). -/
def State.fbData (s : State) (addr : BitVec 11) : Byte := s.pixel (addr.toNat % 64) (addr.toNat / 64)

/-- `awaiting_key`, `running` and `keys_q` (R182). -/
def State.outputs (s : State) : Bool × Bool × Word := (s.awaitingKey, s.running, s.keys)

end Sys2Proof.Machine
end

