-- ==== Sys2Proof/Safety.lean ====
section
/-! DEFINITION. The terms in which claims are stated: the parts of the state and what it means to leave one alone, the
invariants of 10_state.md R44, reachability by transactions, and the end-of-run convention of 70_reset_and_hazards.md R220. -/

namespace Sys2Proof.Machine

/-- The parts of the state a frame speaks of. Storage is named byte by byte, as the machine reads it. `rnd` is the pair of
the model's own fields of the Step's free input. -/
inductive Component where
  | cfg
  | v (x : Reg)
  | i
  | pc
  | sp
  | dt
  | st
  | cyc
  | running
  | awaitingKey
  | wreg
  | keys
  | stack (k : Fin 256)
  | pixel (x : Fin 64) (y : Fin 32)
  | img (j : Fin 3072)
  | mem (a : Fin 4096)
  | rnd
deriving DecidableEq, Repr

/-- The part holds in `t` what it holds in `s`. -/
def Component.same (s t : State) : Component → Prop
  | .cfg => t.cfg = s.cfg
  | .v x => t.getV x = s.getV x
  | .i => t.i = s.i
  | .pc => t.pc = s.pc
  | .sp => t.sp = s.sp
  | .dt => t.dt = s.dt
  | .st => t.st = s.st
  | .cyc => t.cyc = s.cyc
  | .running => t.running = s.running
  | .awaitingKey => t.awaitingKey = s.awaitingKey
  | .wreg => t.wreg = s.wreg
  | .keys => t.keys = s.keys
  | .stack k => t.stackRead k = s.stackRead k
  | .pixel x y => t.pixel x y = s.pixel x y
  | .img j => t.imageByte j = s.imageByte j
  | .mem a => t.memRead a = s.memRead a
  | .rnd => t.rndIn = s.rndIn ∧ t.rndCount = s.rndCount

/-- Every part is unchanged except those that `written` names. -/
def Frame (written : Component → Prop) (s t : State) : Prop := ∀ c : Component, ¬ written c → c.same s t

/-- The invariants of 10_state.md R44 (a) to (d), and the canonical form of the four storage spaces (log 6). -/
structure State.Inv (s : State) : Prop where
  spEven    : s.sp.toNat % 2 = 0
  cycInStep : s.cyc % 10 = 0 ∧ s.cyc < 100
  pixelByte : ∀ (x : Fin 64) (y : Fin 32), s.pixel x y = 0x00 ∨ s.pixel x y = 0xFF
  isRunning : s.running = true
  memWf     : Memory.wf s.cfg.powerOnByte 4096 s.mem
  stackWf   : Memory.wf zeroByte 256 s.stack
  fbWf      : Memory.wf zeroByte 2048 s.fb
  imgWf     : Memory.wf zeroByte 3072 s.img

/-- The states the transactions of 47_host_interface.md R170 reach from power-on. A PowerOn after the first is among the
transactions, which is the model's choice (log 18): the states are all those the spec's sequences reach, and no others, since
such a PowerOn begins a new sequence. -/
inductive State.Reachable : State → Prop where
  | powerOn (c : Config) : State.Reachable (State.powerOn c)
  | transact (s t : State) (a : Transaction) (hs : State.Reachable s) (h : s.transact a = .next t) : State.Reachable t

/-- The end of a run, by the spec's convention: `PC` is the address of a `1NNN` that jumps to itself, in mode RUN
(70_reset_and_hazards.md R220). -/
def State.atSelfJump (s : State) : Prop :=
  s.mode = .run ∧ ∃ nnn : Addr, s.fetchWord = wordA 0x1 nnn ∧ s.pc.toNat = nnn.toNat

/-- The general registers an instruction may write, as 10_state.md R21 lists them: `V[X]` by its writers, `V[0]` to `V[X]` by
FX65, and VF besides by the six flag-writing instructions. -/
def writesV : Instr → Reg → Prop
  | .ldByte x _, r => r = x
  | .addByte x _, r => r = x
  | .ldReg x _, r => r = x
  | .orReg x _, r => r = x
  | .andReg x _, r => r = x
  | .xorReg x _, r => r = x
  | .addReg x _, r => r = x ∨ r = Reg.vf
  | .subReg x _, r => r = x ∨ r = Reg.vf
  | .shr x _, r => r = x ∨ r = Reg.vf
  | .subnReg x _, r => r = x ∨ r = Reg.vf
  | .shl x _, r => r = x ∨ r = Reg.vf
  | .rnd x _, r => r = x
  | .ldVxDT x, r => r = x
  | .loadRegs x, r => r ≤ x
  | .drw _ _ _, r => r = Reg.vf
  | .cls, _ => False
  | .ret, _ => False
  | .sys _, _ => False
  | .jp _, _ => False
  | .call _, _ => False
  | .seByte _ _, _ => False
  | .sneByte _ _, _ => False
  | .seReg _ _, _ => False
  | .sneReg _ _, _ => False
  | .ldI _, _ => False
  | .jpV0 _, _ => False
  | .skp _, _ => False
  | .sknp _, _ => False
  | .ldVxK _, _ => False
  | .ldDTVx _, _ => False
  | .ldSTVx _, _ => False
  | .addIVx _, _ => False
  | .ldFVx _, _ => False
  | .ldBVx _, _ => False
  | .storeRegs _, _ => False
  | .unhandled _, _ => False

/-- The sprite of `n` rows at `I`, drawn at `(x0, y0)`, has a 1 bit at the pixel `(px, py)`: bit `7 - c` of the byte at `I + r`
stands at column `x0 + c` modulo 64, row `y0 + r` modulo 32 (45_display.md R150, R152). -/
def SpriteTouches (s : State) (x0 y0 : Byte) (n : Nibble) (px : Fin 64) (py : Fin 32) : Prop :=
  ∃ r c : Nat, r < n.toNat ∧ c < 8 ∧ (s.memRead (s.i.toNat + r)).getLsbD (7 - c) = true ∧
    (x0.toNat + c) % 64 = px.val ∧ (y0.toNat + r) % 32 = py.val

end Sys2Proof.Machine
end

