-- ==== Sys2Proof/Certificates/Slice0/Obligations.lean ====
section
/-! DEFINITION. The statements for the provers. Each docstring names the rule of spec/ it formalises. `exec` starts from the
state after the pre-advance, so a statement about `exec` has `PC` at the following instruction (40_step_cycle.md R93). -/

open Sys2Proof Sys2Proof.Machine

/-! ## Encoding -/

/-- 30_encoding.md R75: words written out from the table's bit patterns decode to the instructions they stand for. -/
def Obligations.DecodeReadsTheSpecsWords : Prop :=
  decode 0b0000000011100000#16 = .cls ∧
  decode 0b0010001000010000#16 = .call 0x210#12 ∧
  decode 0b0011101000000010#16 = .seByte 10 0x02#8 ∧
  decode 0b1000000100100101#16 = .subReg 1 2 ∧
  decode 0b1101000100101111#16 = .drw 1 2 15#4 ∧
  decode 0b1110001110100001#16 = .sknp 3 ∧
  decode 0b1111001001011010#16 = .unhandled 0xF25A#16 ∧
  decode 0b1111001001100101#16 = .loadRegs 2

/-- 30_encoding.md R73, R74: no bit of an encoding is dropped. -/
def Obligations.DecodingUndoesEncoding : Prop :=
  ∀ i : Instr, i.wellFormed = true → decode (encode i) = i

/-- 30_encoding.md R73: every word has exactly one reading, a well-formed instruction whose word it is. -/
def Obligations.EncodingUndoesDecoding : Prop :=
  ∀ op : Word, encode (decode op) = op ∧ (decode op).wellFormed = true

/-- 30_encoding.md R77: the decoder of R73 and the table of masks, the most mask bits winning, are one function. -/
def Obligations.DecodeAgreesWithTheOpcodeTable : Prop :=
  ∀ op : Word, tableMnemonics op = [(decode op).mnemonic]

/-- 30_encoding.md R78: the unhandled words are exactly those listed. -/
def Obligations.UnhandledWordsAreExactlyThoseListed : Prop :=
  ∀ op : Word, (∃ w, decode op = .unhandled w) ↔
    ((op.toNat / 4096 = 5 ∧ op.toNat % 16 ≠ 0) ∨
     (op.toNat / 4096 = 8 ∧ 8 ≤ op.toNat % 16 ∧ op.toNat % 16 ≠ 0xE) ∨
     (op.toNat / 4096 = 9 ∧ op.toNat % 16 ≠ 0) ∨
     (op.toNat / 4096 = 0xE ∧ op.toNat % 256 ≠ 0x9E ∧ op.toNat % 256 ≠ 0xA1) ∨
     (op.toNat / 4096 = 0xF ∧ op.toNat % 256 ≠ 0x07 ∧ op.toNat % 256 ≠ 0x0A ∧ op.toNat % 256 ≠ 0x15 ∧
      op.toNat % 256 ≠ 0x18 ∧ op.toNat % 256 ≠ 0x1E ∧ op.toNat % 256 ≠ 0x29 ∧ op.toNat % 256 ≠ 0x33 ∧
      op.toNat % 256 ≠ 0x55 ∧ op.toNat % 256 ≠ 0x65))

/-! ## The Step -/

/-- 40_step_cycle.md R90 to R94: with the gate open, a Step is `exec` of the decoded instruction after the pre-advance, then
the count and the tick. The fields `rndIn` and `rndCount` are the model's own (logs 3 and 4). -/
def Obligations.StepRunsTheDecodedInstruction : Prop :=
  ∀ (s : State) (i : Instr), s.running = true → s.awaitingKey = false → i.wellFormed = true →
    decodeBytes [s.memRead s.pc.toNat, s.memRead (s.pc.toNat + 1)] = .ok (i, []) →
    step s =
      match exec i { s with pc := s.pc + 2 } with
      | .next u => .next
          (if u.cyc + 10 < 100 then { u with cyc := u.cyc + 10, rndIn := none, rndCount := u.rndCount + 1 }
           else { u with
            cyc := u.cyc + 10 - 100
            dt := if u.dt = 0 then 0 else u.dt - 1
            st := if u.st = 0 then 0 else u.st - 1
            rndIn := none
            rndCount := u.rndCount + 1 })
      | .fault r => .fault r
      | .refused r => .refused r

/-- 40_step_cycle.md R91 (the spec's decision D25): the Step is a no-op if `running` is false or `awaitingKey` is true,
whatever `rnd` is. -/
def Obligations.ClosedGateStepChangesNothing : Prop :=
  ∀ (s : State) (rnd : Byte), s.running = false ∨ s.awaitingKey = true → step s = .next s ∧ s.stepWith rnd = .next s

/-- 60_exceptions.md R185 (the spec's decision D23): every Step from every state completes, and so does every instruction. -/
def Obligations.EveryStepAndInstructionCompletes : Prop :=
  (∀ s : State, ∃ t, step s = .next t) ∧ (∀ (i : Instr) (s : State), ∃ t, exec i s = .next t)

/-- 40_step_cycle.md R94: after executing, the counter advances by 10, and when it crosses 100 each timer is decremented by 1
if nonzero, whatever the instruction was. `u` is the state after the instruction's own writes. -/
def Obligations.CycleCountAndTickFollowEveryExecutedStep : Prop :=
  ∀ s : State, s.running = true → s.awaitingKey = false → s.cyc % 10 = 0 → s.cyc < 100 →
    ∃ u t, exec (decode s.fetchWord) { s with pc := s.pc + 2 } = .next u ∧ step s = .next t ∧
      t.cyc = (s.cyc + 10) % 100 ∧
      (s.cyc = 90 → t.dt.toNat = u.dt.toNat - 1 ∧ t.st.toNat = u.st.toNat - 1) ∧
      (s.cyc ≠ 90 → t.dt = u.dt ∧ t.st = u.st)

/-- 95_test_vectors.md S7 with conflict C6: from any state with `CYC` = 0 and the gate open, ten Steps of no-op words
decrement each nonzero timer by exactly 1. -/
def Obligations.TenNoOpStepsTickEachTimerOnce : Prop :=
  ∀ (s : State) (rnds : List Byte), s.running = true → s.awaitingKey = false → s.cyc = 0 → s.cfg.legacy = false →
    (∀ k < 10, ∃ i, decode (wordOfBytes (s.memRead (s.pc.toNat + 2 * k)) (s.memRead (s.pc.toNat + 2 * k + 1))) = i ∧
      ((∃ nnn, i = .sys nnn) ∨ ∃ op, i = .unhandled op)) →
    rnds.length = 10 →
    ∃ t, s.run rnds = .next t ∧ t.dt.toNat = s.dt.toNat - 1 ∧ t.st.toNat = s.st.toNat - 1 ∧ t.cyc = 0 ∧
      t.pc.toNat = (s.pc.toNat + 20) % 65536

/-- 60_exceptions.md section 4 (R197): on a tenth Step the tick comes after the instruction's writes. -/
def Obligations.TickComesAfterTheInstructionsWrites : Prop :=
  ∀ (s : State) (x : Reg), s.running = true → s.awaitingKey = false → s.cyc = 90 →
    (decode s.fetchWord = .ldDTVx x → ∃ t, step s = .next t ∧ t.dt.toNat = (s.getV x).toNat - 1) ∧
    (decode s.fetchWord = .ldSTVx x → ∃ t, step s = .next t ∧ t.st.toNat = (s.getV x).toNat - 1) ∧
    (decode s.fetchWord = .ldVxDT x → ∃ t, step s = .next t ∧ t.getV x = s.dt ∧ t.dt.toNat = s.dt.toNat - 1)

/-- 10_state.md section 2 (R24, the spec's decision D7): bits 15:12 of `PC` never influence which bytes are fetched. -/
def Obligations.FetchIgnoresTheHighBitsOfPC : Prop :=
  ∀ (s t : State), t.mem = s.mem → t.cfg = s.cfg → t.pc.toNat % 4096 = s.pc.toNat % 4096 → t.fetchWord = s.fetchWord

/-- 20_memory.md R65: a byte written by FX33 or FX55 in one Step is the byte the fetch sees in the very next Step. `d` names
the byte of the next word (0 the high byte, at the new `PC`; 1 the low byte), `k` the byte of the store: for every X, every
overlap of the stored bytes with the next word, and a byte of that word the store leaves alone reads as before. -/
def Obligations.StoredBytesAreFetchedAtOnce : Prop :=
  ∀ (s : State) (x : Reg), s.running = true → s.awaitingKey = false →
    (decode s.fetchWord = .storeRegs x →
      ∃ t, step s = .next t ∧ t.gateOpen = true ∧ t.pc.toNat = (s.pc.toNat + 2) % 65536 ∧
        ∀ d < 2,
          (∀ k : Reg, k ≤ x → (s.i.toNat + k.val) % 4096 = (s.pc.toNat + 2 + d) % 4096 →
            t.fetchWord.toNat / 256 ^ (1 - d) % 256 = (s.getV k).toNat) ∧
          ((∀ k : Reg, k ≤ x → (s.i.toNat + k.val) % 4096 ≠ (s.pc.toNat + 2 + d) % 4096) →
            t.fetchWord.toNat / 256 ^ (1 - d) % 256 = (s.memRead (s.pc.toNat + 2 + d)).toNat)) ∧
    (decode s.fetchWord = .ldBVx x →
      ∃ t, step s = .next t ∧ t.gateOpen = true ∧ t.pc.toNat = (s.pc.toNat + 2) % 65536 ∧
        ∀ d < 2,
          (∀ k < 3, (s.i.toNat + k) % 4096 = (s.pc.toNat + 2 + d) % 4096 →
            t.fetchWord.toNat / 256 ^ (1 - d) % 256 = (s.getV x).toNat / 10 ^ (2 - k) % 10) ∧
          ((∀ k < 3, (s.i.toNat + k) % 4096 ≠ (s.pc.toNat + 2 + d) % 4096) →
            t.fetchWord.toNat / 256 ^ (1 - d) % 256 = (s.memRead (s.pc.toNat + 2 + d)).toNat))

/-- 40_step_cycle.md R96: `Run(n)` is its Steps in order, with nothing between them; `Run(0)` changes nothing; Steps whose
gate is closed are counted and change nothing; `Run` returns nothing. -/
def Obligations.RunIsItsStepsInOrder : Prop :=
  ∀ (s : State) (rnd : Byte) (first second : List Byte),
    s.run [] = .next s ∧ s.run [rnd] = s.stepWith rnd ∧ (s.gateOpen = false → s.run first = .next s) ∧
    s.response (.run first) = .none ∧
    ∃ t, s.run first = .next t ∧ s.run (first ++ second) = t.run second

/-- 60_exceptions.md section 6 (R202), 47_host_interface.md R174: a waiting core idles through any Run, a keypad write does
not wake it, and a delivered key does. -/
def Obligations.AwaitingCoreIdlesUntilAKeyIsDelivered : Prop :=
  ∀ (s : State) (k : Word) (rnds : List Byte) (index : Nat), s.running = true → s.awaitingKey = true →
    s.run rnds = .next s ∧ (s.setKeys k).run rnds = .next (s.setKeys k) ∧
    (s.setAwaitedKey index).gateOpen = true ∧ ((s.setAwaitedKey index).getV s.wreg).toNat = index % 16

/-- 70_reset_and_hazards.md R220 (the spec's own convention, decision D18): at a jump to itself every Step leaves every
component unchanged except `CYC`, `DT` and `ST`, and the run stays there. `rnd` is the model's own pair of fields. -/
def Obligations.SelfJumpChangesOnlyTheCounters : Prop :=
  ∀ s : State, s.atSelfJump →
    ∃ t, step s = .next t ∧ t.atSelfJump ∧ Frame (fun c => c = .cyc ∨ c = .dt ∨ c = .st ∨ c = .rnd) s t

/-- 40_step_cycle.md section 4 (R97): the transitions of the run mode, and that they are all there are: a transaction after
which the mode differs is a Step or a Run that executes FX0A, a key delivered in AWAIT, a Reset, a successful LoadROM, or a
PowerOn (the model's choice after the first, log 18). -/
def Obligations.RunModeChangesOnlyAsListed : Prop :=
  ∀ s t : State,
    (∀ rnd, s.mode = .run → s.transact (.step rnd) = .next t →
      t.mode = .run ∧ (∀ x, decode s.fetchWord ≠ .ldVxK x) ∨ t.mode = .await ∧ ∃ x, decode s.fetchWord = .ldVxK x) ∧
    (∀ rnd, s.mode = .await → s.transact (.step rnd) = .next t → t.mode = .await) ∧
    (∀ k, s.transact (.setKeys k) = .next t → t.mode = s.mode) ∧
    (∀ x y, s.transact (.readFB x y) = .next t → t.mode = s.mode) ∧
    (∀ bytes, s.transact (.loadROM bytes) = .next t → t.mode = if bytes.length ≤ 3072 then .run else s.mode) ∧
    (s.transact .reset = .next t → t.mode = .run) ∧
    (∀ index, s.transact (.setAwaitedKey index) = .next t → s.mode = .await → t.mode = .run) ∧
    (∀ c, s.transact (.powerOn c) = .next t → t.mode = .run) ∧
    (∀ a, s.transact a = .next t → t.mode = .stopped → s.mode = .stopped) ∧
    (∀ a, s.transact a = .next t → t.mode ≠ s.mode →
      (∃ rnd x, a = .step rnd ∧ s.mode = .run ∧ decode s.fetchWord = .ldVxK x ∧ t.mode = .await) ∨
      (∃ first rnd rest u x, a = .run (first ++ rnd :: rest) ∧ s.mode = .run ∧ s.run first = .next u ∧ u.mode = .run ∧
        decode u.fetchWord = .ldVxK x ∧ t.mode = .await) ∨
      (∃ index, a = .setAwaitedKey index ∧ s.mode = .await) ∨
      a = .reset ∨
      (∃ bytes, a = .loadROM bytes ∧ bytes.length ≤ 3072) ∨
      ∃ c, a = .powerOn c)

/-! ## Invariants -/

/-- 10_state.md R44 (a) to (d) and the canonical form of the storage spaces (log 6) hold at reset. -/
def Obligations.InvariantHoldsAtReset : Prop := State.reset.Inv

/-- 10_state.md section 9 (R44): every Step keeps the invariant. The canonical form is the model's (log 6). -/
def Obligations.EveryStepKeepsTheInvariant : Prop :=
  ∀ s t : State, s.Inv → step s = .next t → t.Inv

/-- 10_state.md section 9 (R44): every transaction keeps the invariant. The canonical form is the model's (log 6), and so is
a PowerOn after the first (log 18). -/
def Obligations.EveryTransactionKeepsTheInvariant : Prop :=
  ∀ (s t : State) (a : Transaction), s.Inv → s.transact a = .next t → t.Inv

/-- 10_state.md R44: (a) to (d) hold in every state reachable from power-on by the transactions (a PowerOn after the first
among them, the model's choice, log 18), and (e) holds immediately after Reset. -/
def Obligations.ReachableStatesMeetTheSpecsInvariants : Prop :=
  ∀ s : State, s.Reachable →
    s.sp.toNat % 2 = 0 ∧
    s.cyc ∈ [0, 10, 20, 30, 40, 50, 60, 70, 80, 90] ∧
    (∀ (x : Fin 64) (y : Fin 32), s.pixel x y = 0x00 ∨ s.pixel x y = 0xFF) ∧
    s.running = true ∧
    (∀ t, s.transact .reset = .next t → ∀ j < 0xC00, t.memRead (0x200 + j) = t.imageByte j)

/-! ## Control transfer -/

/-- 41_control_flow.md R103, R105: the jumps assign `PC` and nothing else. -/
def Obligations.JumpsAssignPC : Prop :=
  ∀ (nnn : Addr) (s : State),
    (∃ t, exec (.jp nnn) s = .next t ∧ t.pc.toNat = nnn.toNat ∧ Frame (fun c => c = .pc) s t) ∧
    (∃ t, exec (.jpV0 nnn) s = .next t ∧ t.pc.toNat = (nnn.toNat + (s.getV 0).toNat) % 4096 ∧ Frame (fun c => c = .pc) s t)

/-- 41_control_flow.md R102: with the option on, `PC = NNN`; otherwise no-op. -/
def Obligations.MachineCallJumpsOnlyWithTheOption : Prop :=
  ∀ (nnn : Addr) (s : State),
    ∃ t, exec (.sys nnn) s = .next t ∧ (s.cfg.legacy = true → t.pc.toNat = nnn.toNat) ∧
      (s.cfg.legacy = false → t.pc = s.pc) ∧ Frame (fun c => c = .pc) s t

/-- 41_control_flow.md R104: push the pre-advanced `PC`, big-endian, then `PC = NNN`. -/
def Obligations.CallPushesThePreAdvancedPC : Prop :=
  ∀ (nnn : Addr) (s : State),
    ∃ t, exec (.call nnn) s = .next t ∧
      (t.stackRead s.sp.toNat).toNat = s.pc.toNat / 256 ∧ (t.stackRead (s.sp.toNat + 1)).toNat = s.pc.toNat % 256 ∧
      t.sp.toNat = (s.sp.toNat + 2) % 256 ∧ t.pc.toNat = nnn.toNat ∧
      Frame (fun c => c = .pc ∨ c = .sp ∨
        ∃ k : Fin 256, c = .stack k ∧ (k.val = s.sp.toNat ∨ k.val = (s.sp.toNat + 1) % 256)) s t

/-- 41_control_flow.md R101: `PC` is popped from the slot below `SP`; the stack bytes stay in place. -/
def Obligations.ReturnPopsPC : Prop :=
  ∀ s : State,
    ∃ t, exec .ret s = .next t ∧ t.sp.toNat = (s.sp.toNat + 254) % 256 ∧
      t.pc.toNat = (s.stackRead t.sp.toNat).toNat * 256 + (s.stackRead (t.sp.toNat + 1)).toNat ∧
      Frame (fun c => c = .pc ∨ c = .sp) s t

/-- 95_test_vectors.md S10: `2NNN` then `00EE` returns `PC` to the instruction after the call, with `SP` restored, from every
`SP`, as long as what runs between leaves `SP` and the stack as the call left them. -/
def Obligations.CallThenReturnRestoresPCAndSP : Prop :=
  ∀ (nnn : Addr) (s t u : State), exec (.call nnn) s = .next t →
    u.sp = t.sp → (∀ k, u.stackRead k = t.stackRead k) →
    ∃ w, exec .ret u = .next w ∧ w.pc = s.pc ∧ w.sp = s.sp

/-- 41_control_flow.md section 1 (R100), conflict C1: after 128 pushes of any words without a pop `SP` is back where it was and
each slot holds its word, and the 129th push overwrites the slot of the first and no other (byte-wise for an odd `SP` by the
spec's decision D27). -/
def Obligations.DeepCallsWrapOntoTheFirstSlot : Prop :=
  ∀ (s u : State) (words : List Word) (b : Word), words.length = 128 → words.foldl State.push s = u →
    u.sp = s.sp ∧
    (∀ j < 128, (u.stackRead (s.sp.toNat + 2 * j)).toNat = (words.getD j 0).toNat / 256 ∧
      (u.stackRead (s.sp.toNat + 2 * j + 1)).toNat = (words.getD j 0).toNat % 256) ∧
    ((u.push b).stackRead s.sp.toNat).toNat = b.toNat / 256 ∧
    ((u.push b).stackRead (s.sp.toNat + 1)).toNat = b.toNat % 256 ∧
    (∀ k : Nat, k % 256 ≠ s.sp.toNat → k % 256 ≠ (s.sp.toNat + 1) % 256 → (u.push b).stackRead k = u.stackRead k)

/-- 40_step_cycle.md R95: an unhandled word executes as a no-op: the Step advances `PC` by 2 and counts, and nothing else is
written. `rnd` is the model's own pair of fields. -/
def Obligations.UnhandledWordIsANoOp : Prop :=
  (∀ (op : Word) (s : State), ∃ t, exec (.unhandled op) s = .next t ∧ Frame (fun _ => False) s t) ∧
  (∀ (op : Word) (s : State), s.running = true → s.awaitingKey = false → decode s.fetchWord = .unhandled op →
    ∃ t, step s = .next t ∧ t.pc.toNat = (s.pc.toNat + 2) % 65536 ∧
      (s.cyc + 10 < 100 → t.cyc = s.cyc + 10) ∧ (s.cyc + 10 = 100 → t.cyc = 0) ∧
      Frame (fun c => c = .pc ∨ c = .cyc ∨ c = .dt ∨ c = .st ∨ c = .rnd) s t)

/-! ## Skips -/

/-- 42_skips.md R111 to R114: the register-compare skips write nothing but `PC`. -/
def Obligations.RegisterCompareSkips : Prop :=
  ∀ (x y : Reg) (nn : Byte) (s : State),
    (∃ t, exec (.seByte x nn) s = .next t ∧
      t.pc.toNat = (if s.getV x = nn then (s.pc.toNat + 2) % 65536 else s.pc.toNat) ∧ Frame (fun c => c = .pc) s t) ∧
    (∃ t, exec (.sneByte x nn) s = .next t ∧
      t.pc.toNat = (if s.getV x = nn then s.pc.toNat else (s.pc.toNat + 2) % 65536) ∧ Frame (fun c => c = .pc) s t) ∧
    (∃ t, exec (.seReg x y) s = .next t ∧
      t.pc.toNat = (if s.getV x = s.getV y then (s.pc.toNat + 2) % 65536 else s.pc.toNat) ∧ Frame (fun c => c = .pc) s t) ∧
    (∃ t, exec (.sneReg x y) s = .next t ∧
      t.pc.toNat = (if s.getV x = s.getV y then s.pc.toNat else (s.pc.toNat + 2) % 65536) ∧ Frame (fun c => c = .pc) s t)

/-- 46_keypad_timers.md R161, R162: the keypad skips test key `V[X] mod 16` (behind it the spec's decision D5) and write
nothing but `PC`. -/
def Obligations.KeypadSkipsTestTheKeyModulo16 : Prop :=
  ∀ (x : Reg) (s : State),
    (∃ t, exec (.skp x) s = .next t ∧
      t.pc.toNat = (if s.keys.getLsbD ((s.getV x).toNat % 16) = true then (s.pc.toNat + 2) % 65536 else s.pc.toNat) ∧
      Frame (fun c => c = .pc) s t) ∧
    (∃ t, exec (.sknp x) s = .next t ∧
      t.pc.toNat = (if s.keys.getLsbD ((s.getV x).toNat % 16) = true then s.pc.toNat else (s.pc.toNat + 2) % 65536) ∧
      Frame (fun c => c = .pc) s t)

/-- 42_skips.md R110: a skip instruction at address `a` leaves `PC` = `a + 4` when its condition holds and `a + 2` when it
does not; the skipped bytes have no effect: the Step reads no other word and changes nothing but `PC` and its own counting. -/
def Obligations.SkipStepLandsAtPlusFourOrPlusTwo : Prop :=
  ∀ (s : State) (cond : Bool), s.running = true → s.awaitingKey = false →
    ((∃ x nn, decode s.fetchWord = .seByte x nn ∧ cond = decide (s.getV x = nn)) ∨
     (∃ x nn, decode s.fetchWord = .sneByte x nn ∧ cond = decide (s.getV x ≠ nn)) ∨
     (∃ x y, decode s.fetchWord = .seReg x y ∧ cond = decide (s.getV x = s.getV y)) ∨
     (∃ x y, decode s.fetchWord = .sneReg x y ∧ cond = decide (s.getV x ≠ s.getV y)) ∨
     (∃ x, decode s.fetchWord = .skp x ∧ cond = s.keys.getLsbD ((s.getV x).toNat % 16)) ∨
     (∃ x, decode s.fetchWord = .sknp x ∧ cond = !s.keys.getLsbD ((s.getV x).toNat % 16))) →
    ∃ t, step s = .next t ∧ t.pc.toNat = (s.pc.toNat + if cond then 4 else 2) % 65536 ∧
      Frame (fun c => c = .pc ∨ c = .cyc ∨ c = .dt ∨ c = .st ∨ c = .rnd) s t

/-! ## Registers -/

/-- 43_alu.md R122, R124, 46_keypad_timers.md R164: the loads into a general register. -/
def Obligations.RegisterLoads : Prop :=
  ∀ (x y : Reg) (nn : Byte) (s : State),
    (∃ t, exec (.ldByte x nn) s = .next t ∧ t.getV x = nn ∧ Frame (fun c => c = .v x) s t) ∧
    (∃ t, exec (.ldReg x y) s = .next t ∧ t.getV x = s.getV y ∧ Frame (fun c => c = .v x) s t) ∧
    (∃ t, exec (.ldVxDT x) s = .next t ∧ t.getV x = s.dt ∧ Frame (fun c => c = .v x) s t)

/-- 43_alu.md R123: 8-bit wraparound, no flag set. -/
def Obligations.AddImmediateWrapsWithoutFlag : Prop :=
  ∀ (x : Reg) (nn : Byte) (s : State),
    ∃ t, exec (.addByte x nn) s = .next t ∧ (t.getV x).toNat = ((s.getV x).toNat + nn.toNat) % 256 ∧
      Frame (fun c => c = .v x) s t

/-- 43_alu.md R125 to R127: OR, AND, XOR bit by bit; VF is not written (the spec's decision D29). -/
def Obligations.LogicWritesOnlyItsDestination : Prop :=
  ∀ (x y : Reg) (s : State),
    (∃ t, exec (.orReg x y) s = .next t ∧
      (∀ k, (t.getV x).getLsbD k = ((s.getV x).getLsbD k || (s.getV y).getLsbD k)) ∧ Frame (fun c => c = .v x) s t) ∧
    (∃ t, exec (.andReg x y) s = .next t ∧
      (∀ k, (t.getV x).getLsbD k = ((s.getV x).getLsbD k && (s.getV y).getLsbD k)) ∧ Frame (fun c => c = .v x) s t) ∧
    (∃ t, exec (.xorReg x y) s = .next t ∧
      (∀ k, (t.getV x).getLsbD k = Bool.xor ((s.getV x).getLsbD k) ((s.getV y).getLsbD k)) ∧ Frame (fun c => c = .v x) s t)

/-- 43_alu.md R128: the sum truncated to 8 bits, then VF = 1 if the 9-bit sum exceeded 255, else 0. VF is written last, so
with X = 0xF it ends as the carry. -/
def Obligations.AddReportsTheCarryInVF : Prop :=
  ∀ (x y : Reg) (s : State),
    ∃ t, exec (.addReg x y) s = .next t ∧
      (x ≠ 15 → (t.getV x).toNat = ((s.getV x).toNat + (s.getV y).toNat) % 256) ∧
      t.getV 15 = (if (s.getV x).toNat + (s.getV y).toNat > 255 then 1 else 0) ∧
      Frame (fun c => c = .v x ∨ c = .v 15) s t

/-- 43_alu.md R129, R131: the differences modulo 256, VF = 1 when no borrow. `V[X]` is written last, so with X = 0xF it ends
as the difference (behind it the spec's decision D2). -/
def Obligations.SubtractionsReportNoBorrowInVF : Prop :=
  ∀ (x y : Reg) (s : State),
    (∃ t, exec (.subReg x y) s = .next t ∧
      (t.getV x).toNat = ((s.getV x).toNat + 256 - (s.getV y).toNat) % 256 ∧
      (x ≠ 15 → t.getV 15 = if (s.getV x).toNat ≥ (s.getV y).toNat then 1 else 0) ∧
      Frame (fun c => c = .v x ∨ c = .v 15) s t) ∧
    (∃ t, exec (.subnReg x y) s = .next t ∧
      (t.getV x).toNat = ((s.getV y).toNat + 256 - (s.getV x).toNat) % 256 ∧
      (x ≠ 15 → t.getV 15 = if (s.getV x).toNat ≤ (s.getV y).toNat then 1 else 0) ∧
      Frame (fun c => c = .v x ∨ c = .v 15) s t)

/-- 43_alu.md R130, R132: the shifts of `V[X]` by one, VF = the bit shifted out. `V[X]` is written last
(behind it the spec's decision D2). `V[Y]` is neither read nor written: the result is the same for every Y. -/
def Obligations.ShiftsReportTheBitShiftedOut : Prop :=
  ∀ (x y : Reg) (s : State),
    (∃ t, exec (.shr x y) s = .next t ∧ (t.getV x).toNat = (s.getV x).toNat / 2 ∧
      (x ≠ 15 → (t.getV 15).toNat = (s.getV x).toNat % 2) ∧ Frame (fun c => c = .v x ∨ c = .v 15) s t ∧
      ∀ z, exec (.shr x z) s = .next t) ∧
    (∃ t, exec (.shl x y) s = .next t ∧ (t.getV x).toNat = (s.getV x).toNat * 2 % 256 ∧
      (x ≠ 15 → (t.getV 15).toNat = (s.getV x).toNat / 128) ∧ Frame (fun c => c = .v x ∨ c = .v 15) s t ∧
      ∀ z, exec (.shl x z) s = .next t)

/-- 43_alu.md R133: `V[X] <- rnd & NN`, where `rnd` is the byte of the Step: for every byte the host presents to a Step, and
for an unpresented one whatever the free value is (log 3). The result never has a bit set that NN has clear. -/
def Obligations.RandomByteIsMasked : Prop :=
  ∀ (x : Reg) (nn : Byte) (s : State),
    (∃ t, exec (.rnd x nn) s = .next t ∧ t.getV x = (s.rndIn.getD (Config.freeRnd s.rndCount) &&& nn) ∧
      (∀ k, nn.getLsbD k = false → (t.getV x).getLsbD k = false) ∧ Frame (fun c => c = .v x) s t) ∧
    (∀ rnd : Byte, s.running = true → s.awaitingKey = false → decode s.fetchWord = .rnd x nn →
      ∃ t, s.stepWith rnd = .next t ∧ t.getV x = (rnd &&& nn))

/-! ## Index register and memory -/

/-- 44_index_memory.md R140 to R142: the writers of `I`; FX1E keeps 16 bits and FX29 masks nothing (the spec's decision D6). -/
def Obligations.IndexRegisterWriters : Prop :=
  ∀ (x : Reg) (nnn : Addr) (s : State),
    (∃ t, exec (.ldI nnn) s = .next t ∧ t.i.toNat = nnn.toNat ∧ Frame (fun c => c = .i) s t) ∧
    (∃ t, exec (.addIVx x) s = .next t ∧ t.i.toNat = (s.i.toNat + (s.getV x).toNat) % 65536 ∧ Frame (fun c => c = .i) s t) ∧
    (∃ t, exec (.ldFVx x) s = .next t ∧ t.i.toNat = (s.getV x).toNat * 5 ∧ Frame (fun c => c = .i) s t)

/-- 44_index_memory.md R143: the three decimal digits, hundreds first, at `I`, `I + 1`, `I + 2` modulo 4096. -/
def Obligations.DecimalDigitsAreStoredAtI : Prop :=
  ∀ (x : Reg) (s : State),
    ∃ t, exec (.ldBVx x) s = .next t ∧
      (t.memRead s.i.toNat).toNat = (s.getV x).toNat / 100 ∧
      (t.memRead (s.i.toNat + 1)).toNat = (s.getV x).toNat / 10 % 10 ∧
      (t.memRead (s.i.toNat + 2)).toNat = (s.getV x).toNat % 10 ∧
      Frame (fun c => ∃ (a : Fin 4096) (k : Nat), k < 3 ∧ c = .mem a ∧ a.val = (s.i.toNat + k) % 4096) s t

/-- 44_index_memory.md R144: `V[k]` at `(I + k) mod 4096` for k in 0..X. -/
def Obligations.BlockStoreWritesV0ToVX : Prop :=
  ∀ (x : Reg) (s : State),
    ∃ t, exec (.storeRegs x) s = .next t ∧
      (∀ k : Reg, k ≤ x → t.memRead (s.i.toNat + k.val) = s.getV k) ∧
      Frame (fun c => ∃ (a : Fin 4096) (k : Reg), k ≤ x ∧ c = .mem a ∧ a.val = (s.i.toNat + k.val) % 4096) s t

/-- 44_index_memory.md R145: `V[k]` from `(I + k) mod 4096` for k in 0..X. -/
def Obligations.BlockLoadReadsV0ToVX : Prop :=
  ∀ (x : Reg) (s : State),
    ∃ t, exec (.loadRegs x) s = .next t ∧
      (∀ k : Reg, k ≤ x → t.getV k = s.memRead (s.i.toNat + k.val)) ∧
      Frame (fun c => ∃ k : Reg, k ≤ x ∧ c = .v k) s t

/-! ## Display -/

/-- 45_display.md R151: every pixel off; VF and memory untouched. -/
def Obligations.ClearTurnsEveryPixelOff : Prop :=
  ∀ s : State,
    ∃ t, exec .cls s = .next t ∧ (∀ (x : Fin 64) (y : Fin 32), t.pixel x y = 0x00) ∧
      Frame (fun c => ∃ x y, c = .pixel x y) s t

/-- 45_display.md R152: a pixel under a 1 bit is turned off if it was on and on otherwise, every coordinate wraps, and VF is 1
exactly when a pixel that was on was turned off. Operands are read before VF is cleared (the spec's decision D2), so X = 0xF
and Y = 0xF are covered; which bit is which column is the spec's decision D3 (log 10). -/
def Obligations.DrawXorsTheSpriteAndReportsCollision : Prop :=
  ∀ (x y : Reg) (n : Nibble) (s : State),
    ∃ t, exec (.drw x y n) s = .next t ∧
      (∀ (px : Fin 64) (py : Fin 32), SpriteTouches s (s.getV x) (s.getV y) n px py →
        t.pixel px py = if s.pixel px py = 0xFF then 0x00 else 0xFF) ∧
      ((∃ (px : Fin 64) (py : Fin 32), SpriteTouches s (s.getV x) (s.getV y) n px py ∧ s.pixel px py = 0xFF) →
        t.getV 15 = 1) ∧
      ((¬ ∃ (px : Fin 64) (py : Fin 32), SpriteTouches s (s.getV x) (s.getV y) n px py ∧ s.pixel px py = 0xFF) →
        t.getV 15 = 0) ∧
      Frame (fun c => c = .v 15 ∨
        ∃ (px : Fin 64) (py : Fin 32), SpriteTouches s (s.getV x) (s.getV y) n px py ∧ c = .pixel px py) s t

/-- 45_display.md R153: the identical sprite drawn at the identical location twice restores every pixel; the first draw
reports 1 exactly over a pixel that was on, the second exactly over one that was off, and the visible result of one draw is
the exclusive OR with 0xFF. Which pixels the sprite touches rests on the spec's decision D3 for the bit order (PRESUMED,
log 10), and the forms with X or Y = 0xF on its decision D2 (log 9). -/
def Obligations.DoubleDrawRestoresTheScreen : Prop :=
  ∀ (x y x' y' : Reg) (n : Nibble) (s t : State),
    (∀ (px : Fin 64) (py : Fin 32), s.pixel px py = 0x00 ∨ s.pixel px py = 0xFF) →
    exec (.drw x y n) s = .next t → t.getV x' = s.getV x → t.getV y' = s.getV y →
    ∃ u, exec (.drw x' y' n) t = .next u ∧
      (∀ (px : Fin 64) (py : Fin 32), u.pixel px py = s.pixel px py) ∧
      (∀ (px : Fin 64) (py : Fin 32), SpriteTouches s (s.getV x) (s.getV y) n px py →
        t.pixel px py = s.pixel px py ^^^ 0xFF) ∧
      (t.getV 15 = 1 ↔ ∃ px py, SpriteTouches s (s.getV x) (s.getV y) n px py ∧ s.pixel px py = 0xFF) ∧
      (u.getV 15 = 1 ↔ ∃ px py, SpriteTouches s (s.getV x) (s.getV y) n px py ∧ s.pixel px py = 0x00) ∧
      ((∃ px py, SpriteTouches s (s.getV x) (s.getV y) n px py) → t.getV 15 = 1 ∨ u.getV 15 = 1)

/-! ## Keypad and timers -/

/-- 46_keypad_timers.md R163: `awaitingKey <- 1; WREG <- X`; neither `V[X]` nor `PC` is written. -/
def Obligations.WaitForKeyOpensTheWait : Prop :=
  ∀ (x : Reg) (s : State),
    ∃ t, exec (.ldVxK x) s = .next t ∧ t.awaitingKey = true ∧ t.wreg = x ∧
      Frame (fun c => c = .awaitingKey ∨ c = .wreg) s t

/-- 46_keypad_timers.md R165, R166: the timer writes; `CYC` is not reset. -/
def Obligations.TimerWrites : Prop :=
  ∀ (x : Reg) (s : State),
    (∃ t, exec (.ldDTVx x) s = .next t ∧ t.dt = s.getV x ∧ Frame (fun c => c = .dt) s t) ∧
    (∃ t, exec (.ldSTVx x) s = .next t ∧ t.st = s.getV x ∧ Frame (fun c => c = .st) s t)

/-! ## Transactions -/

/-- 70_reset_and_hazards.md R211, R212 (with the spec's decisions D10, D11, D12, D14): what Reset writes, and that it touches
nothing else. -/
def Obligations.ResetWritesTheListedStateOnly : Prop :=
  ∀ s : State,
    ∃ t, s.transact .reset = .next t ∧
      (∀ x, t.getV x = 0x00) ∧ (∀ k, t.stackRead k = 0x00) ∧ t.dt = 0x00 ∧ t.st = 0x00 ∧ t.i = 0x0000 ∧ t.pc = 0x0200 ∧
      t.sp = 0x00 ∧ t.running = true ∧ t.awaitingKey = false ∧ t.cyc = 0 ∧ t.wreg = 0 ∧
      (∀ (x : Fin 64) (y : Fin 32), t.pixel x y = 0x00) ∧
      (∀ j : Fin 80, t.memRead j = s.cfg.font[j]) ∧
      (∀ j < 0xC00, t.memRead (0x200 + j) = s.imageByte j) ∧
      t.keys = s.keys ∧ t.cfg = s.cfg ∧ (∀ j, t.imageByte j = s.imageByte j) ∧
      (∀ a : Nat, (0x050 ≤ a ∧ a < 0x200) ∨ (0xE00 ≤ a ∧ a < 0x1000) → t.memRead a = s.memRead a)

/-- 70_reset_and_hazards.md section 1 (R211): two Resets in a row equal one. -/
def Obligations.ResetIsIdempotent : Prop :=
  ∀ s : State, s.resetCore.resetCore = s.resetCore

/-- 70_reset_and_hazards.md R213 to R215: an image of at most 0xC00 bytes, the empty one too, is stored zero-padded and Reset
follows; a longer one fails and changes nothing. -/
def Obligations.LoadStoresTheImageOrFails : Prop :=
  ∀ (s : State) (bytes : List Byte),
    (bytes.length ≤ 0xC00 →
      ∃ t, s.transact (.loadROM bytes) = .next t ∧ s.response (.loadROM bytes) = .loaded true ∧
        (∀ j < 0xC00, t.imageByte j = bytes.getD j 0x00) ∧
        (∀ j < 0xC00, t.memRead (0x200 + j) = bytes.getD j 0x00) ∧
        t = { s with img := t.img }.resetCore) ∧
    (0xC00 < bytes.length →
      s.transact (.loadROM bytes) = .next s ∧ s.response (.loadROM bytes) = .loaded false)

/-- 47_host_interface.md R174 (with no wait pending the spec's decision D13): a delivery stores `index mod 16` into
`V[WREG]` and clears `awaitingKey`; with no wait pending
nothing changes. -/
def Obligations.DeliveredKeyGoesToThePendingRegister : Prop :=
  ∀ (s : State) (index : Nat),
    (s.awaitingKey = true →
      ∃ t, s.transact (.setAwaitedKey index) = .next t ∧ (t.getV s.wreg).toNat = index % 16 ∧ t.awaitingKey = false ∧
        Frame (fun c => c = .v s.wreg ∨ c = .awaitingKey) s t) ∧
    (s.awaitingKey = false → s.transact (.setAwaitedKey index) = .next s)

/-- 47_host_interface.md R172, R173, with R175 and R176: the keypad write writes the keypad only; the reads return what they
name and change nothing. -/
def Obligations.KeypadWriteAndReads : Prop :=
  ∀ (s : State) (k : Word) (x : Fin 64) (y : Fin 32),
    (∃ t, s.transact (.setKeys k) = .next t ∧ (∀ j, t.keys.getLsbD j = k.getLsbD j) ∧ Frame (fun c => c = .keys) s t) ∧
    s.transact .readKeys = .next s ∧ s.response .readKeys = .keys s.keys ∧
    s.transact .readAwaiting = .next s ∧ s.response .readAwaiting = .awaiting s.awaitingKey ∧
    s.transact (.readFB x y) = .next s ∧ s.response (.readFB x y) = .pixel (s.pixel x y)

/-- 47_host_interface.md R177 with R175, the host's protocol: one host tick writes the keys, delivers the lowest pressed key
if the core waits and a key is pressed, and runs. -/
def Obligations.HostTickDeliversTheLowestPressedKey : Prop :=
  ∀ (s : State) (k : Word) (rnds : List Byte),
    (s.awaitingKey = false → s.hostTick k rnds = (s.setKeys k).run rnds) ∧
    (k = 0 → s.hostTick k rnds = (s.setKeys k).run rnds) ∧
    (∀ j : Nat, s.awaitingKey = true → k.getLsbD j = true → (∀ l < j, k.getLsbD l = false) →
      s.hostTick k rnds = ((s.setKeys k).setAwaitedKey j).run rnds)

/-- 70_reset_and_hazards.md R210 with 10_state.md R46 (and the spec's decisions D1, D10, D14, D20): the state after power-on,
for both values of the option and every FONT. That PowerOn is accepted from every state is the model's choice (log 18). -/
def Obligations.PowerOnGivesTheListedState : Prop :=
  ∀ (c : Config) (s : State),
    ∃ t, s.transact (.powerOn c) = .next t ∧ t.cfg = c ∧
      (∀ x, t.getV x = 0x00) ∧ t.pc = 0x0200 ∧ t.i = 0x0000 ∧ t.sp = 0x00 ∧ t.dt = 0x00 ∧ t.st = 0x00 ∧ t.cyc = 0 ∧
      t.running = true ∧ t.awaitingKey = false ∧ t.wreg = 0 ∧ t.keys = 0 ∧ (∀ k, t.stackRead k = 0x00) ∧
      (∀ a : Fin 4096, t.memRead a = if h : a.val < 80 then c.font[a.val] else 0x00) ∧
      (∀ (x : Fin 64) (y : Fin 32), t.pixel x y = 0x00) ∧ (∀ j, t.imageByte j = 0x00)

/-- `State.reset` is the state after `PowerOn(cfg_legacy = 0)` with the customary FONT, which is the model's choice (log 1). -/
def Obligations.ResetStateIsPowerOn : Prop :=
  State.reset = State.powerOn { legacy := false, font := customaryFont }

/-! ## Whole-machine rules -/

/-- 10_state.md section 1 (R21): no rule writes a general register but those listed. -/
def Obligations.GeneralRegistersAreWrittenOnlyAsListed : Prop :=
  ∀ (i : Instr) (s t : State), exec i s = .next t → ∀ x : Reg, t.getV x ≠ s.getV x → writesV i x

/-- 20_memory.md section 1 (R50): each storage space is written only by its own instructions; KEYS, IMG, the configuration and
`running` are written by none (10_state.md R31, R34, R36, R43). -/
def Obligations.StorageSpacesAreWrittenOnlyByTheirInstructions : Prop :=
  ∀ (i : Instr) (s t : State), exec i s = .next t →
    (∀ a, t.memRead a ≠ s.memRead a → (∃ x, i = .ldBVx x) ∨ ∃ x, i = .storeRegs x) ∧
    (∀ k, t.stackRead k ≠ s.stackRead k → ∃ nnn, i = .call nnn) ∧
    (∀ x y, t.pixel x y ≠ s.pixel x y → i = .cls ∨ ∃ x y n, i = .drw x y n) ∧
    t.keys = s.keys ∧ t.img = s.img ∧ t.cfg = s.cfg ∧ t.running = s.running

/-- 10_state.md section 4 (R26 to R33) with 40_step_cycle.md R93: each special register is written only by its own
instructions; CYC by none (the Step writes it). -/
def Obligations.SpecialRegistersAreWrittenOnlyByTheirInstructions : Prop :=
  ∀ (i : Instr) (s t : State), exec i s = .next t →
    (t.i ≠ s.i → (∃ nnn, i = .ldI nnn) ∨ (∃ x, i = .addIVx x) ∨ ∃ x, i = .ldFVx x) ∧
    (t.sp ≠ s.sp → i = .ret ∨ ∃ nnn, i = .call nnn) ∧
    (t.dt ≠ s.dt → ∃ x, i = .ldDTVx x) ∧
    (t.st ≠ s.st → ∃ x, i = .ldSTVx x) ∧
    (t.awaitingKey ≠ s.awaitingKey ∨ t.wreg ≠ s.wreg → ∃ x, i = .ldVxK x) ∧
    t.cyc = s.cyc

/-! ## Ports -/

/-- 47_host_interface.md R183 (the spec's decision D17): simultaneous requests are served in the order `rst`,
`rom_commit`, `keys_we`, `akey_valid`,
`step`, each performed to completion before the next. -/
def Obligations.SimultaneousRequestsAreServedInOrder : Prop :=
  ∀ (s : State) (r : PortRequests),
    s.serve r =
      let s1 := if r.rst then s.resetCore else s
      let s2 := match r.romCommit with
        | some bytes => (s1.loadROM bytes).1
        | none => s1
      let s3 := match r.keysWe with
        | some k => s2.setKeys k
        | none => s2
      let s4 := match r.akeyValid with
        | some k => s3.setAwaitedKey k.toNat
        | none => s3
      match r.step with
      | some rnd => s4.stepWith rnd
      | none => .next s4

/-- 47_host_interface.md section 5 (R182), 10_state.md R41: on the linear port the pixel is at index `y * 64 + x`. -/
def Obligations.LinearReadPortIsRowMajor : Prop :=
  ∀ (s : State) (x : Fin 64) (y : Fin 32), s.fbData (BitVec.ofNat 11 (y.val * 64 + x.val)) = s.readFB x y
end

