-- ==== Sys2Proof/Laws/Memory.lean ====
section
/-! SUPPORT. The laws of the storage spaces: read after write, and that a write keeps the canonical form. -/

namespace Sys2Proof.Machine

@[simp] theorem Memory.read_nil (d : Nat → Byte) (a : Nat) : Memory.read d [] a = d a := rfl

@[simp] theorem Memory.read_cons (d : Nat → Byte) (c : Host.Cell) (m : Memory) (a : Nat) :
    Memory.read d (c :: m) a = if a = c.1 then c.2 else Memory.read d m a := rfl

/-- A key no cell of the prefix has is read in the rest. -/
theorem Memory.read_append (d : Nat → Byte) (m n : Memory) (a : Nat) (h : ∀ c ∈ m, c.1 ≠ a) :
    Memory.read d (m ++ n) a = Memory.read d n a := by
  induction m with
  | nil => rfl
  | cons c m ih =>
    have hc := h c List.mem_cons_self
    simp [Ne.symm hc, ih (fun e he => h e (List.mem_cons_of_mem _ he))]

/-- A key no cell has reads as unlisted. -/
theorem Memory.read_unlisted (d : Nat → Byte) (m : Memory) (a : Nat) (h : ∀ c ∈ m, c.1 ≠ a) :
    Memory.read d m a = d a := by
  simpa using Memory.read_append d m [] a h

/-- Dropping cells of other keys changes nothing at `a`. -/
theorem Memory.read_filter (d : Nat → Byte) (m : Memory) (p : Host.Cell → Bool) (a : Nat)
    (h : ∀ c : Host.Cell, c.1 = a → p c = true) : Memory.read d (m.filter p) a = Memory.read d m a := by
  induction m with
  | nil => rfl
  | cons c m ih =>
    by_cases ha : a = c.1
    · simp [h c ha.symm, ha]
    · by_cases hp : p c = true <;> simp [hp, ha, ih]

theorem Memory.read_insert (d : Nat → Byte) (m : Memory) (a b : Nat) (v : Byte) (h : ∀ c ∈ m, c.1 ≠ a) :
    Memory.read d (Memory.insert a v m) b = if b = a then v else Memory.read d m b := by
  induction m with
  | nil => rfl
  | cons c m ih =>
    have hc := h c List.mem_cons_self
    have hm := ih (fun e he => h e (List.mem_cons_of_mem _ he))
    by_cases hlt : a < c.1
    · simp [Memory.insert, hlt]
    · by_cases hb : b = c.1
      · simp [Memory.insert, hlt, hb, hc]
      · simp [Memory.insert, hlt, hb, hm]

theorem Memory.key_ne_of_mem_filter (m : Memory) (a : Nat) : ∀ c ∈ m.filter (fun c => c.1 != a), c.1 ≠ a := by
  intro c hc
  simpa using (List.mem_filter.1 hc).2

/-- Read after write, for every list of cells, canonical or not. -/
theorem Memory.read_write (d : Nat → Byte) (m : Memory) (a b : Nat) (v : Byte) :
    Memory.read d (Memory.write d m a v) b = if b = a then v else Memory.read d m b := by
  have hne := Memory.key_ne_of_mem_filter m a
  have hother : b ≠ a → Memory.read d (m.filter (fun c => c.1 != a)) b = Memory.read d m b := by
    intro hb
    exact Memory.read_filter d m _ b (fun c hc => by simpa [hc] using hb)
  unfold Memory.write
  split
  · next hv =>
    by_cases hb : b = a
    · simp only [hb, if_true]
      rw [Memory.read_unlisted d _ a hne, hv]
    · simp [hb, hother hb]
  · rw [Memory.read_insert d _ a b v hne]
    by_cases hb : b = a
    · simp [hb]
    · simp [hb, hother hb]

theorem Memory.mem_insert (m : Memory) (a : Nat) (v : Byte) (c : Host.Cell) :
    c ∈ Memory.insert a v m ↔ c = (a, v) ∨ c ∈ m := by
  induction m with
  | nil => simp [Memory.insert]
  | cons e m ih =>
    by_cases h : a < e.1
    · simp [Memory.insert, h]
    · simp only [Memory.insert, h, if_false, List.mem_cons, ih]
      tauto

theorem Memory.pairwise_insert (m : Memory) (a : Nat) (v : Byte) (hm : m.Pairwise (fun c e => c.1 < e.1))
    (ha : ∀ c ∈ m, c.1 ≠ a) : (Memory.insert a v m).Pairwise (fun c e => c.1 < e.1) := by
  induction m with
  | nil => simp [Memory.insert]
  | cons e m ih =>
    rw [List.pairwise_cons] at hm
    by_cases h : a < e.1
    · simp only [Memory.insert, h, if_true, List.pairwise_cons, List.mem_cons]
      refine ⟨?_, hm.1, hm.2⟩
      rintro c (rfl | hc)
      · exact h
      · exact h.trans (hm.1 c hc)
    · simp only [Memory.insert, h, if_false, List.pairwise_cons]
      refine ⟨?_, ih hm.2 (fun c hc => ha c (List.mem_cons_of_mem _ hc))⟩
      intro c hc
      rcases (Memory.mem_insert m a v c).1 hc with rfl | hc
      · have := ha e List.mem_cons_self
        omega
      · exact hm.1 c hc

/-- A write inside the space keeps the canonical form. -/
theorem Memory.wf_write (d : Nat → Byte) (size : Nat) (m : Memory) (a : Nat) (v : Byte) (ha : a < size)
    (hm : Memory.wf d size m) : Memory.wf d size (Memory.write d m a v) := by
  have hf : Memory.wf d size (m.filter (fun c => c.1 != a)) :=
    ⟨hm.1.filter _, fun c hc => hm.2 c (List.mem_filter.1 hc).1⟩
  unfold Memory.write
  split
  · exact hf
  · next hv =>
    refine ⟨Memory.pairwise_insert _ _ _ hf.1 ?_, ?_⟩
    · intro c hc
      simpa using (List.mem_filter.1 hc).2
    · intro c hc
      rcases (Memory.mem_insert _ a v c).1 hc with rfl | hc
      · exact ⟨ha, hv⟩
      · exact hf.2 c hc

theorem Memory.wf_nil (d : Nat → Byte) (size : Nat) : Memory.wf d size [] :=
  ⟨List.Pairwise.nil, fun _ h => absurd h List.not_mem_nil⟩

@[simp] theorem zeroByte_eq (a : Nat) : zeroByte a = 0 := rfl

theorem powerOnByte_of_ge (c : Config) (a : Nat) (h : 80 ≤ a) : c.powerOnByte a = 0 := by
  simp [Config.powerOnByte, Nat.not_lt.2 h]

end Sys2Proof.Machine
end

