-- ==== Sys2Proof/Laws/State.lean ====
section
/-! SUPPORT. One lemma per field per update of the state, and one per read the update leaves alone, true by rfl. -/

namespace Sys2Proof.Machine

variable (s : State)

@[simp] theorem State.setV_cfg (x : Reg) (b : Byte) : (s.setV x b).cfg = s.cfg := rfl
@[simp] theorem State.setV_v (x : Reg) (b : Byte) : (s.setV x b).v = s.v.set x b := rfl
@[simp] theorem State.setV_i (x : Reg) (b : Byte) : (s.setV x b).i = s.i := rfl
@[simp] theorem State.setV_pc (x : Reg) (b : Byte) : (s.setV x b).pc = s.pc := rfl
@[simp] theorem State.setV_sp (x : Reg) (b : Byte) : (s.setV x b).sp = s.sp := rfl
@[simp] theorem State.setV_dt (x : Reg) (b : Byte) : (s.setV x b).dt = s.dt := rfl
@[simp] theorem State.setV_st (x : Reg) (b : Byte) : (s.setV x b).st = s.st := rfl
@[simp] theorem State.setV_cyc (x : Reg) (b : Byte) : (s.setV x b).cyc = s.cyc := rfl
@[simp] theorem State.setV_running (x : Reg) (b : Byte) : (s.setV x b).running = s.running := rfl
@[simp] theorem State.setV_awaitingKey (x : Reg) (b : Byte) : (s.setV x b).awaitingKey = s.awaitingKey := rfl
@[simp] theorem State.setV_wreg (x : Reg) (b : Byte) : (s.setV x b).wreg = s.wreg := rfl
@[simp] theorem State.setV_keys (x : Reg) (b : Byte) : (s.setV x b).keys = s.keys := rfl
@[simp] theorem State.setV_stack (x : Reg) (b : Byte) : (s.setV x b).stack = s.stack := rfl
@[simp] theorem State.setV_fb (x : Reg) (b : Byte) : (s.setV x b).fb = s.fb := rfl
@[simp] theorem State.setV_img (x : Reg) (b : Byte) : (s.setV x b).img = s.img := rfl
@[simp] theorem State.setV_mem (x : Reg) (b : Byte) : (s.setV x b).mem = s.mem := rfl
@[simp] theorem State.setV_rndIn (x : Reg) (b : Byte) : (s.setV x b).rndIn = s.rndIn := rfl
@[simp] theorem State.setV_rndCount (x : Reg) (b : Byte) : (s.setV x b).rndCount = s.rndCount := rfl
@[simp] theorem State.memRead_setV (x : Reg) (b : Byte) (c : Nat) : (s.setV x b).memRead c = s.memRead c := rfl
@[simp] theorem State.stackRead_setV (x : Reg) (b : Byte) (j : Nat) : (s.setV x b).stackRead j = s.stackRead j := rfl
@[simp] theorem State.pixel_setV (x : Reg) (b : Byte) (c r : Nat) : (s.setV x b).pixel c r = s.pixel c r := rfl
@[simp] theorem State.imageByte_setV (x : Reg) (b : Byte) (j : Nat) : (s.setV x b).imageByte j = s.imageByte j := rfl

@[simp] theorem State.setPC_cfg (a : Word) : (s.setPC a).cfg = s.cfg := rfl
@[simp] theorem State.setPC_v (a : Word) : (s.setPC a).v = s.v := rfl
@[simp] theorem State.setPC_i (a : Word) : (s.setPC a).i = s.i := rfl
@[simp] theorem State.setPC_pc (a : Word) : (s.setPC a).pc = a := rfl
@[simp] theorem State.setPC_sp (a : Word) : (s.setPC a).sp = s.sp := rfl
@[simp] theorem State.setPC_dt (a : Word) : (s.setPC a).dt = s.dt := rfl
@[simp] theorem State.setPC_st (a : Word) : (s.setPC a).st = s.st := rfl
@[simp] theorem State.setPC_cyc (a : Word) : (s.setPC a).cyc = s.cyc := rfl
@[simp] theorem State.setPC_running (a : Word) : (s.setPC a).running = s.running := rfl
@[simp] theorem State.setPC_awaitingKey (a : Word) : (s.setPC a).awaitingKey = s.awaitingKey := rfl
@[simp] theorem State.setPC_wreg (a : Word) : (s.setPC a).wreg = s.wreg := rfl
@[simp] theorem State.setPC_keys (a : Word) : (s.setPC a).keys = s.keys := rfl
@[simp] theorem State.setPC_stack (a : Word) : (s.setPC a).stack = s.stack := rfl
@[simp] theorem State.setPC_fb (a : Word) : (s.setPC a).fb = s.fb := rfl
@[simp] theorem State.setPC_img (a : Word) : (s.setPC a).img = s.img := rfl
@[simp] theorem State.setPC_mem (a : Word) : (s.setPC a).mem = s.mem := rfl
@[simp] theorem State.setPC_rndIn (a : Word) : (s.setPC a).rndIn = s.rndIn := rfl
@[simp] theorem State.setPC_rndCount (a : Word) : (s.setPC a).rndCount = s.rndCount := rfl
@[simp] theorem State.getV_setPC (a : Word) (y : Reg) : (s.setPC a).getV y = s.getV y := rfl
@[simp] theorem State.memRead_setPC (a : Word) (c : Nat) : (s.setPC a).memRead c = s.memRead c := rfl
@[simp] theorem State.stackRead_setPC (a : Word) (j : Nat) : (s.setPC a).stackRead j = s.stackRead j := rfl
@[simp] theorem State.pixel_setPC (a : Word) (c r : Nat) : (s.setPC a).pixel c r = s.pixel c r := rfl
@[simp] theorem State.imageByte_setPC (a : Word) (j : Nat) : (s.setPC a).imageByte j = s.imageByte j := rfl

@[simp] theorem State.setI_cfg (a : Word) : (s.setI a).cfg = s.cfg := rfl
@[simp] theorem State.setI_v (a : Word) : (s.setI a).v = s.v := rfl
@[simp] theorem State.setI_i (a : Word) : (s.setI a).i = a := rfl
@[simp] theorem State.setI_pc (a : Word) : (s.setI a).pc = s.pc := rfl
@[simp] theorem State.setI_sp (a : Word) : (s.setI a).sp = s.sp := rfl
@[simp] theorem State.setI_dt (a : Word) : (s.setI a).dt = s.dt := rfl
@[simp] theorem State.setI_st (a : Word) : (s.setI a).st = s.st := rfl
@[simp] theorem State.setI_cyc (a : Word) : (s.setI a).cyc = s.cyc := rfl
@[simp] theorem State.setI_running (a : Word) : (s.setI a).running = s.running := rfl
@[simp] theorem State.setI_awaitingKey (a : Word) : (s.setI a).awaitingKey = s.awaitingKey := rfl
@[simp] theorem State.setI_wreg (a : Word) : (s.setI a).wreg = s.wreg := rfl
@[simp] theorem State.setI_keys (a : Word) : (s.setI a).keys = s.keys := rfl
@[simp] theorem State.setI_stack (a : Word) : (s.setI a).stack = s.stack := rfl
@[simp] theorem State.setI_fb (a : Word) : (s.setI a).fb = s.fb := rfl
@[simp] theorem State.setI_img (a : Word) : (s.setI a).img = s.img := rfl
@[simp] theorem State.setI_mem (a : Word) : (s.setI a).mem = s.mem := rfl
@[simp] theorem State.setI_rndIn (a : Word) : (s.setI a).rndIn = s.rndIn := rfl
@[simp] theorem State.setI_rndCount (a : Word) : (s.setI a).rndCount = s.rndCount := rfl
@[simp] theorem State.getV_setI (a : Word) (y : Reg) : (s.setI a).getV y = s.getV y := rfl
@[simp] theorem State.memRead_setI (a : Word) (c : Nat) : (s.setI a).memRead c = s.memRead c := rfl
@[simp] theorem State.stackRead_setI (a : Word) (j : Nat) : (s.setI a).stackRead j = s.stackRead j := rfl
@[simp] theorem State.pixel_setI (a : Word) (c r : Nat) : (s.setI a).pixel c r = s.pixel c r := rfl
@[simp] theorem State.imageByte_setI (a : Word) (j : Nat) : (s.setI a).imageByte j = s.imageByte j := rfl

@[simp] theorem State.setSP_cfg (b : Byte) : (s.setSP b).cfg = s.cfg := rfl
@[simp] theorem State.setSP_v (b : Byte) : (s.setSP b).v = s.v := rfl
@[simp] theorem State.setSP_i (b : Byte) : (s.setSP b).i = s.i := rfl
@[simp] theorem State.setSP_pc (b : Byte) : (s.setSP b).pc = s.pc := rfl
@[simp] theorem State.setSP_sp (b : Byte) : (s.setSP b).sp = b := rfl
@[simp] theorem State.setSP_dt (b : Byte) : (s.setSP b).dt = s.dt := rfl
@[simp] theorem State.setSP_st (b : Byte) : (s.setSP b).st = s.st := rfl
@[simp] theorem State.setSP_cyc (b : Byte) : (s.setSP b).cyc = s.cyc := rfl
@[simp] theorem State.setSP_running (b : Byte) : (s.setSP b).running = s.running := rfl
@[simp] theorem State.setSP_awaitingKey (b : Byte) : (s.setSP b).awaitingKey = s.awaitingKey := rfl
@[simp] theorem State.setSP_wreg (b : Byte) : (s.setSP b).wreg = s.wreg := rfl
@[simp] theorem State.setSP_keys (b : Byte) : (s.setSP b).keys = s.keys := rfl
@[simp] theorem State.setSP_stack (b : Byte) : (s.setSP b).stack = s.stack := rfl
@[simp] theorem State.setSP_fb (b : Byte) : (s.setSP b).fb = s.fb := rfl
@[simp] theorem State.setSP_img (b : Byte) : (s.setSP b).img = s.img := rfl
@[simp] theorem State.setSP_mem (b : Byte) : (s.setSP b).mem = s.mem := rfl
@[simp] theorem State.setSP_rndIn (b : Byte) : (s.setSP b).rndIn = s.rndIn := rfl
@[simp] theorem State.setSP_rndCount (b : Byte) : (s.setSP b).rndCount = s.rndCount := rfl
@[simp] theorem State.getV_setSP (b : Byte) (y : Reg) : (s.setSP b).getV y = s.getV y := rfl
@[simp] theorem State.memRead_setSP (b : Byte) (c : Nat) : (s.setSP b).memRead c = s.memRead c := rfl
@[simp] theorem State.stackRead_setSP (b : Byte) (j : Nat) : (s.setSP b).stackRead j = s.stackRead j := rfl
@[simp] theorem State.pixel_setSP (b : Byte) (c r : Nat) : (s.setSP b).pixel c r = s.pixel c r := rfl
@[simp] theorem State.imageByte_setSP (b : Byte) (j : Nat) : (s.setSP b).imageByte j = s.imageByte j := rfl

@[simp] theorem State.setDT_cfg (b : Byte) : (s.setDT b).cfg = s.cfg := rfl
@[simp] theorem State.setDT_v (b : Byte) : (s.setDT b).v = s.v := rfl
@[simp] theorem State.setDT_i (b : Byte) : (s.setDT b).i = s.i := rfl
@[simp] theorem State.setDT_pc (b : Byte) : (s.setDT b).pc = s.pc := rfl
@[simp] theorem State.setDT_sp (b : Byte) : (s.setDT b).sp = s.sp := rfl
@[simp] theorem State.setDT_dt (b : Byte) : (s.setDT b).dt = b := rfl
@[simp] theorem State.setDT_st (b : Byte) : (s.setDT b).st = s.st := rfl
@[simp] theorem State.setDT_cyc (b : Byte) : (s.setDT b).cyc = s.cyc := rfl
@[simp] theorem State.setDT_running (b : Byte) : (s.setDT b).running = s.running := rfl
@[simp] theorem State.setDT_awaitingKey (b : Byte) : (s.setDT b).awaitingKey = s.awaitingKey := rfl
@[simp] theorem State.setDT_wreg (b : Byte) : (s.setDT b).wreg = s.wreg := rfl
@[simp] theorem State.setDT_keys (b : Byte) : (s.setDT b).keys = s.keys := rfl
@[simp] theorem State.setDT_stack (b : Byte) : (s.setDT b).stack = s.stack := rfl
@[simp] theorem State.setDT_fb (b : Byte) : (s.setDT b).fb = s.fb := rfl
@[simp] theorem State.setDT_img (b : Byte) : (s.setDT b).img = s.img := rfl
@[simp] theorem State.setDT_mem (b : Byte) : (s.setDT b).mem = s.mem := rfl
@[simp] theorem State.setDT_rndIn (b : Byte) : (s.setDT b).rndIn = s.rndIn := rfl
@[simp] theorem State.setDT_rndCount (b : Byte) : (s.setDT b).rndCount = s.rndCount := rfl
@[simp] theorem State.getV_setDT (b : Byte) (y : Reg) : (s.setDT b).getV y = s.getV y := rfl
@[simp] theorem State.memRead_setDT (b : Byte) (c : Nat) : (s.setDT b).memRead c = s.memRead c := rfl
@[simp] theorem State.stackRead_setDT (b : Byte) (j : Nat) : (s.setDT b).stackRead j = s.stackRead j := rfl
@[simp] theorem State.pixel_setDT (b : Byte) (c r : Nat) : (s.setDT b).pixel c r = s.pixel c r := rfl
@[simp] theorem State.imageByte_setDT (b : Byte) (j : Nat) : (s.setDT b).imageByte j = s.imageByte j := rfl

@[simp] theorem State.setST_cfg (b : Byte) : (s.setST b).cfg = s.cfg := rfl
@[simp] theorem State.setST_v (b : Byte) : (s.setST b).v = s.v := rfl
@[simp] theorem State.setST_i (b : Byte) : (s.setST b).i = s.i := rfl
@[simp] theorem State.setST_pc (b : Byte) : (s.setST b).pc = s.pc := rfl
@[simp] theorem State.setST_sp (b : Byte) : (s.setST b).sp = s.sp := rfl
@[simp] theorem State.setST_dt (b : Byte) : (s.setST b).dt = s.dt := rfl
@[simp] theorem State.setST_st (b : Byte) : (s.setST b).st = b := rfl
@[simp] theorem State.setST_cyc (b : Byte) : (s.setST b).cyc = s.cyc := rfl
@[simp] theorem State.setST_running (b : Byte) : (s.setST b).running = s.running := rfl
@[simp] theorem State.setST_awaitingKey (b : Byte) : (s.setST b).awaitingKey = s.awaitingKey := rfl
@[simp] theorem State.setST_wreg (b : Byte) : (s.setST b).wreg = s.wreg := rfl
@[simp] theorem State.setST_keys (b : Byte) : (s.setST b).keys = s.keys := rfl
@[simp] theorem State.setST_stack (b : Byte) : (s.setST b).stack = s.stack := rfl
@[simp] theorem State.setST_fb (b : Byte) : (s.setST b).fb = s.fb := rfl
@[simp] theorem State.setST_img (b : Byte) : (s.setST b).img = s.img := rfl
@[simp] theorem State.setST_mem (b : Byte) : (s.setST b).mem = s.mem := rfl
@[simp] theorem State.setST_rndIn (b : Byte) : (s.setST b).rndIn = s.rndIn := rfl
@[simp] theorem State.setST_rndCount (b : Byte) : (s.setST b).rndCount = s.rndCount := rfl
@[simp] theorem State.getV_setST (b : Byte) (y : Reg) : (s.setST b).getV y = s.getV y := rfl
@[simp] theorem State.memRead_setST (b : Byte) (c : Nat) : (s.setST b).memRead c = s.memRead c := rfl
@[simp] theorem State.stackRead_setST (b : Byte) (j : Nat) : (s.setST b).stackRead j = s.stackRead j := rfl
@[simp] theorem State.pixel_setST (b : Byte) (c r : Nat) : (s.setST b).pixel c r = s.pixel c r := rfl
@[simp] theorem State.imageByte_setST (b : Byte) (j : Nat) : (s.setST b).imageByte j = s.imageByte j := rfl

@[simp] theorem State.setCyc_cfg (n : Nat) : (s.setCyc n).cfg = s.cfg := rfl
@[simp] theorem State.setCyc_v (n : Nat) : (s.setCyc n).v = s.v := rfl
@[simp] theorem State.setCyc_i (n : Nat) : (s.setCyc n).i = s.i := rfl
@[simp] theorem State.setCyc_pc (n : Nat) : (s.setCyc n).pc = s.pc := rfl
@[simp] theorem State.setCyc_sp (n : Nat) : (s.setCyc n).sp = s.sp := rfl
@[simp] theorem State.setCyc_dt (n : Nat) : (s.setCyc n).dt = s.dt := rfl
@[simp] theorem State.setCyc_st (n : Nat) : (s.setCyc n).st = s.st := rfl
@[simp] theorem State.setCyc_cyc (n : Nat) : (s.setCyc n).cyc = n := rfl
@[simp] theorem State.setCyc_running (n : Nat) : (s.setCyc n).running = s.running := rfl
@[simp] theorem State.setCyc_awaitingKey (n : Nat) : (s.setCyc n).awaitingKey = s.awaitingKey := rfl
@[simp] theorem State.setCyc_wreg (n : Nat) : (s.setCyc n).wreg = s.wreg := rfl
@[simp] theorem State.setCyc_keys (n : Nat) : (s.setCyc n).keys = s.keys := rfl
@[simp] theorem State.setCyc_stack (n : Nat) : (s.setCyc n).stack = s.stack := rfl
@[simp] theorem State.setCyc_fb (n : Nat) : (s.setCyc n).fb = s.fb := rfl
@[simp] theorem State.setCyc_img (n : Nat) : (s.setCyc n).img = s.img := rfl
@[simp] theorem State.setCyc_mem (n : Nat) : (s.setCyc n).mem = s.mem := rfl
@[simp] theorem State.setCyc_rndIn (n : Nat) : (s.setCyc n).rndIn = s.rndIn := rfl
@[simp] theorem State.setCyc_rndCount (n : Nat) : (s.setCyc n).rndCount = s.rndCount := rfl
@[simp] theorem State.getV_setCyc (n : Nat) (y : Reg) : (s.setCyc n).getV y = s.getV y := rfl
@[simp] theorem State.memRead_setCyc (n : Nat) (c : Nat) : (s.setCyc n).memRead c = s.memRead c := rfl
@[simp] theorem State.stackRead_setCyc (n : Nat) (j : Nat) : (s.setCyc n).stackRead j = s.stackRead j := rfl
@[simp] theorem State.pixel_setCyc (n : Nat) (c r : Nat) : (s.setCyc n).pixel c r = s.pixel c r := rfl
@[simp] theorem State.imageByte_setCyc (n : Nat) (j : Nat) : (s.setCyc n).imageByte j = s.imageByte j := rfl

@[simp] theorem State.enterAwait_cfg (x : Reg) : (s.enterAwait x).cfg = s.cfg := rfl
@[simp] theorem State.enterAwait_v (x : Reg) : (s.enterAwait x).v = s.v := rfl
@[simp] theorem State.enterAwait_i (x : Reg) : (s.enterAwait x).i = s.i := rfl
@[simp] theorem State.enterAwait_pc (x : Reg) : (s.enterAwait x).pc = s.pc := rfl
@[simp] theorem State.enterAwait_sp (x : Reg) : (s.enterAwait x).sp = s.sp := rfl
@[simp] theorem State.enterAwait_dt (x : Reg) : (s.enterAwait x).dt = s.dt := rfl
@[simp] theorem State.enterAwait_st (x : Reg) : (s.enterAwait x).st = s.st := rfl
@[simp] theorem State.enterAwait_cyc (x : Reg) : (s.enterAwait x).cyc = s.cyc := rfl
@[simp] theorem State.enterAwait_running (x : Reg) : (s.enterAwait x).running = s.running := rfl
@[simp] theorem State.enterAwait_awaitingKey (x : Reg) : (s.enterAwait x).awaitingKey = true := rfl
@[simp] theorem State.enterAwait_wreg (x : Reg) : (s.enterAwait x).wreg = x := rfl
@[simp] theorem State.enterAwait_keys (x : Reg) : (s.enterAwait x).keys = s.keys := rfl
@[simp] theorem State.enterAwait_stack (x : Reg) : (s.enterAwait x).stack = s.stack := rfl
@[simp] theorem State.enterAwait_fb (x : Reg) : (s.enterAwait x).fb = s.fb := rfl
@[simp] theorem State.enterAwait_img (x : Reg) : (s.enterAwait x).img = s.img := rfl
@[simp] theorem State.enterAwait_mem (x : Reg) : (s.enterAwait x).mem = s.mem := rfl
@[simp] theorem State.enterAwait_rndIn (x : Reg) : (s.enterAwait x).rndIn = s.rndIn := rfl
@[simp] theorem State.enterAwait_rndCount (x : Reg) : (s.enterAwait x).rndCount = s.rndCount := rfl
@[simp] theorem State.getV_enterAwait (x : Reg) (y : Reg) : (s.enterAwait x).getV y = s.getV y := rfl
@[simp] theorem State.memRead_enterAwait (x : Reg) (c : Nat) : (s.enterAwait x).memRead c = s.memRead c := rfl
@[simp] theorem State.stackRead_enterAwait (x : Reg) (j : Nat) : (s.enterAwait x).stackRead j = s.stackRead j := rfl
@[simp] theorem State.pixel_enterAwait (x : Reg) (c r : Nat) : (s.enterAwait x).pixel c r = s.pixel c r := rfl
@[simp] theorem State.imageByte_enterAwait (x : Reg) (j : Nat) : (s.enterAwait x).imageByte j = s.imageByte j := rfl

@[simp] theorem State.leaveAwait_cfg : (s.leaveAwait).cfg = s.cfg := rfl
@[simp] theorem State.leaveAwait_v : (s.leaveAwait).v = s.v := rfl
@[simp] theorem State.leaveAwait_i : (s.leaveAwait).i = s.i := rfl
@[simp] theorem State.leaveAwait_pc : (s.leaveAwait).pc = s.pc := rfl
@[simp] theorem State.leaveAwait_sp : (s.leaveAwait).sp = s.sp := rfl
@[simp] theorem State.leaveAwait_dt : (s.leaveAwait).dt = s.dt := rfl
@[simp] theorem State.leaveAwait_st : (s.leaveAwait).st = s.st := rfl
@[simp] theorem State.leaveAwait_cyc : (s.leaveAwait).cyc = s.cyc := rfl
@[simp] theorem State.leaveAwait_running : (s.leaveAwait).running = s.running := rfl
@[simp] theorem State.leaveAwait_awaitingKey : (s.leaveAwait).awaitingKey = false := rfl
@[simp] theorem State.leaveAwait_wreg : (s.leaveAwait).wreg = s.wreg := rfl
@[simp] theorem State.leaveAwait_keys : (s.leaveAwait).keys = s.keys := rfl
@[simp] theorem State.leaveAwait_stack : (s.leaveAwait).stack = s.stack := rfl
@[simp] theorem State.leaveAwait_fb : (s.leaveAwait).fb = s.fb := rfl
@[simp] theorem State.leaveAwait_img : (s.leaveAwait).img = s.img := rfl
@[simp] theorem State.leaveAwait_mem : (s.leaveAwait).mem = s.mem := rfl
@[simp] theorem State.leaveAwait_rndIn : (s.leaveAwait).rndIn = s.rndIn := rfl
@[simp] theorem State.leaveAwait_rndCount : (s.leaveAwait).rndCount = s.rndCount := rfl
@[simp] theorem State.getV_leaveAwait (y : Reg) : (s.leaveAwait).getV y = s.getV y := rfl
@[simp] theorem State.memRead_leaveAwait (c : Nat) : (s.leaveAwait).memRead c = s.memRead c := rfl
@[simp] theorem State.stackRead_leaveAwait (j : Nat) : (s.leaveAwait).stackRead j = s.stackRead j := rfl
@[simp] theorem State.pixel_leaveAwait (c r : Nat) : (s.leaveAwait).pixel c r = s.pixel c r := rfl
@[simp] theorem State.imageByte_leaveAwait (j : Nat) : (s.leaveAwait).imageByte j = s.imageByte j := rfl

@[simp] theorem State.setFB_cfg (m : Memory) : (s.setFB m).cfg = s.cfg := rfl
@[simp] theorem State.setFB_v (m : Memory) : (s.setFB m).v = s.v := rfl
@[simp] theorem State.setFB_i (m : Memory) : (s.setFB m).i = s.i := rfl
@[simp] theorem State.setFB_pc (m : Memory) : (s.setFB m).pc = s.pc := rfl
@[simp] theorem State.setFB_sp (m : Memory) : (s.setFB m).sp = s.sp := rfl
@[simp] theorem State.setFB_dt (m : Memory) : (s.setFB m).dt = s.dt := rfl
@[simp] theorem State.setFB_st (m : Memory) : (s.setFB m).st = s.st := rfl
@[simp] theorem State.setFB_cyc (m : Memory) : (s.setFB m).cyc = s.cyc := rfl
@[simp] theorem State.setFB_running (m : Memory) : (s.setFB m).running = s.running := rfl
@[simp] theorem State.setFB_awaitingKey (m : Memory) : (s.setFB m).awaitingKey = s.awaitingKey := rfl
@[simp] theorem State.setFB_wreg (m : Memory) : (s.setFB m).wreg = s.wreg := rfl
@[simp] theorem State.setFB_keys (m : Memory) : (s.setFB m).keys = s.keys := rfl
@[simp] theorem State.setFB_stack (m : Memory) : (s.setFB m).stack = s.stack := rfl
@[simp] theorem State.setFB_fb (m : Memory) : (s.setFB m).fb = m := rfl
@[simp] theorem State.setFB_img (m : Memory) : (s.setFB m).img = s.img := rfl
@[simp] theorem State.setFB_mem (m : Memory) : (s.setFB m).mem = s.mem := rfl
@[simp] theorem State.setFB_rndIn (m : Memory) : (s.setFB m).rndIn = s.rndIn := rfl
@[simp] theorem State.setFB_rndCount (m : Memory) : (s.setFB m).rndCount = s.rndCount := rfl
@[simp] theorem State.getV_setFB (m : Memory) (y : Reg) : (s.setFB m).getV y = s.getV y := rfl
@[simp] theorem State.memRead_setFB (m : Memory) (c : Nat) : (s.setFB m).memRead c = s.memRead c := rfl
@[simp] theorem State.stackRead_setFB (m : Memory) (j : Nat) : (s.setFB m).stackRead j = s.stackRead j := rfl
@[simp] theorem State.imageByte_setFB (m : Memory) (j : Nat) : (s.setFB m).imageByte j = s.imageByte j := rfl

@[simp] theorem State.memWrite_cfg (a : Nat) (b : Byte) : (s.memWrite a b).cfg = s.cfg := rfl
@[simp] theorem State.memWrite_v (a : Nat) (b : Byte) : (s.memWrite a b).v = s.v := rfl
@[simp] theorem State.memWrite_i (a : Nat) (b : Byte) : (s.memWrite a b).i = s.i := rfl
@[simp] theorem State.memWrite_pc (a : Nat) (b : Byte) : (s.memWrite a b).pc = s.pc := rfl
@[simp] theorem State.memWrite_sp (a : Nat) (b : Byte) : (s.memWrite a b).sp = s.sp := rfl
@[simp] theorem State.memWrite_dt (a : Nat) (b : Byte) : (s.memWrite a b).dt = s.dt := rfl
@[simp] theorem State.memWrite_st (a : Nat) (b : Byte) : (s.memWrite a b).st = s.st := rfl
@[simp] theorem State.memWrite_cyc (a : Nat) (b : Byte) : (s.memWrite a b).cyc = s.cyc := rfl
@[simp] theorem State.memWrite_running (a : Nat) (b : Byte) : (s.memWrite a b).running = s.running := rfl
@[simp] theorem State.memWrite_awaitingKey (a : Nat) (b : Byte) : (s.memWrite a b).awaitingKey = s.awaitingKey := rfl
@[simp] theorem State.memWrite_wreg (a : Nat) (b : Byte) : (s.memWrite a b).wreg = s.wreg := rfl
@[simp] theorem State.memWrite_keys (a : Nat) (b : Byte) : (s.memWrite a b).keys = s.keys := rfl
@[simp] theorem State.memWrite_stack (a : Nat) (b : Byte) : (s.memWrite a b).stack = s.stack := rfl
@[simp] theorem State.memWrite_fb (a : Nat) (b : Byte) : (s.memWrite a b).fb = s.fb := rfl
@[simp] theorem State.memWrite_img (a : Nat) (b : Byte) : (s.memWrite a b).img = s.img := rfl
@[simp] theorem State.memWrite_mem (a : Nat) (b : Byte) : (s.memWrite a b).mem = Memory.write s.cfg.powerOnByte s.mem (a % 4096) b := rfl
@[simp] theorem State.memWrite_rndIn (a : Nat) (b : Byte) : (s.memWrite a b).rndIn = s.rndIn := rfl
@[simp] theorem State.memWrite_rndCount (a : Nat) (b : Byte) : (s.memWrite a b).rndCount = s.rndCount := rfl
@[simp] theorem State.getV_memWrite (a : Nat) (b : Byte) (y : Reg) : (s.memWrite a b).getV y = s.getV y := rfl
@[simp] theorem State.stackRead_memWrite (a : Nat) (b : Byte) (j : Nat) : (s.memWrite a b).stackRead j = s.stackRead j := rfl
@[simp] theorem State.pixel_memWrite (a : Nat) (b : Byte) (c r : Nat) : (s.memWrite a b).pixel c r = s.pixel c r := rfl
@[simp] theorem State.imageByte_memWrite (a : Nat) (b : Byte) (j : Nat) : (s.memWrite a b).imageByte j = s.imageByte j := rfl

@[simp] theorem State.stackWrite_cfg (k : Nat) (b : Byte) : (s.stackWrite k b).cfg = s.cfg := rfl
@[simp] theorem State.stackWrite_v (k : Nat) (b : Byte) : (s.stackWrite k b).v = s.v := rfl
@[simp] theorem State.stackWrite_i (k : Nat) (b : Byte) : (s.stackWrite k b).i = s.i := rfl
@[simp] theorem State.stackWrite_pc (k : Nat) (b : Byte) : (s.stackWrite k b).pc = s.pc := rfl
@[simp] theorem State.stackWrite_sp (k : Nat) (b : Byte) : (s.stackWrite k b).sp = s.sp := rfl
@[simp] theorem State.stackWrite_dt (k : Nat) (b : Byte) : (s.stackWrite k b).dt = s.dt := rfl
@[simp] theorem State.stackWrite_st (k : Nat) (b : Byte) : (s.stackWrite k b).st = s.st := rfl
@[simp] theorem State.stackWrite_cyc (k : Nat) (b : Byte) : (s.stackWrite k b).cyc = s.cyc := rfl
@[simp] theorem State.stackWrite_running (k : Nat) (b : Byte) : (s.stackWrite k b).running = s.running := rfl
@[simp] theorem State.stackWrite_awaitingKey (k : Nat) (b : Byte) : (s.stackWrite k b).awaitingKey = s.awaitingKey := rfl
@[simp] theorem State.stackWrite_wreg (k : Nat) (b : Byte) : (s.stackWrite k b).wreg = s.wreg := rfl
@[simp] theorem State.stackWrite_keys (k : Nat) (b : Byte) : (s.stackWrite k b).keys = s.keys := rfl
@[simp] theorem State.stackWrite_stack (k : Nat) (b : Byte) : (s.stackWrite k b).stack = Memory.write zeroByte s.stack (k % 256) b := rfl
@[simp] theorem State.stackWrite_fb (k : Nat) (b : Byte) : (s.stackWrite k b).fb = s.fb := rfl
@[simp] theorem State.stackWrite_img (k : Nat) (b : Byte) : (s.stackWrite k b).img = s.img := rfl
@[simp] theorem State.stackWrite_mem (k : Nat) (b : Byte) : (s.stackWrite k b).mem = s.mem := rfl
@[simp] theorem State.stackWrite_rndIn (k : Nat) (b : Byte) : (s.stackWrite k b).rndIn = s.rndIn := rfl
@[simp] theorem State.stackWrite_rndCount (k : Nat) (b : Byte) : (s.stackWrite k b).rndCount = s.rndCount := rfl
@[simp] theorem State.getV_stackWrite (k : Nat) (b : Byte) (y : Reg) : (s.stackWrite k b).getV y = s.getV y := rfl
@[simp] theorem State.memRead_stackWrite (k : Nat) (b : Byte) (c : Nat) : (s.stackWrite k b).memRead c = s.memRead c := rfl
@[simp] theorem State.pixel_stackWrite (k : Nat) (b : Byte) (c r : Nat) : (s.stackWrite k b).pixel c r = s.pixel c r := rfl
@[simp] theorem State.imageByte_stackWrite (k : Nat) (b : Byte) (j : Nat) : (s.stackWrite k b).imageByte j = s.imageByte j := rfl

@[simp] theorem State.nextRnd_cfg : (s.nextRnd).cfg = s.cfg := rfl
@[simp] theorem State.nextRnd_v : (s.nextRnd).v = s.v := rfl
@[simp] theorem State.nextRnd_i : (s.nextRnd).i = s.i := rfl
@[simp] theorem State.nextRnd_pc : (s.nextRnd).pc = s.pc := rfl
@[simp] theorem State.nextRnd_sp : (s.nextRnd).sp = s.sp := rfl
@[simp] theorem State.nextRnd_dt : (s.nextRnd).dt = s.dt := rfl
@[simp] theorem State.nextRnd_st : (s.nextRnd).st = s.st := rfl
@[simp] theorem State.nextRnd_cyc : (s.nextRnd).cyc = s.cyc := rfl
@[simp] theorem State.nextRnd_running : (s.nextRnd).running = s.running := rfl
@[simp] theorem State.nextRnd_awaitingKey : (s.nextRnd).awaitingKey = s.awaitingKey := rfl
@[simp] theorem State.nextRnd_wreg : (s.nextRnd).wreg = s.wreg := rfl
@[simp] theorem State.nextRnd_keys : (s.nextRnd).keys = s.keys := rfl
@[simp] theorem State.nextRnd_stack : (s.nextRnd).stack = s.stack := rfl
@[simp] theorem State.nextRnd_fb : (s.nextRnd).fb = s.fb := rfl
@[simp] theorem State.nextRnd_img : (s.nextRnd).img = s.img := rfl
@[simp] theorem State.nextRnd_mem : (s.nextRnd).mem = s.mem := rfl
@[simp] theorem State.nextRnd_rndIn : (s.nextRnd).rndIn = none := rfl
@[simp] theorem State.nextRnd_rndCount : (s.nextRnd).rndCount = s.rndCount + 1 := rfl
@[simp] theorem State.getV_nextRnd (y : Reg) : (s.nextRnd).getV y = s.getV y := rfl
@[simp] theorem State.memRead_nextRnd (c : Nat) : (s.nextRnd).memRead c = s.memRead c := rfl
@[simp] theorem State.stackRead_nextRnd (j : Nat) : (s.nextRnd).stackRead j = s.stackRead j := rfl
@[simp] theorem State.pixel_nextRnd (c r : Nat) : (s.nextRnd).pixel c r = s.pixel c r := rfl
@[simp] theorem State.imageByte_nextRnd (j : Nat) : (s.nextRnd).imageByte j = s.imageByte j := rfl

@[simp] theorem State.setKeys_cfg (k : Word) : (s.setKeys k).cfg = s.cfg := rfl
@[simp] theorem State.setKeys_v (k : Word) : (s.setKeys k).v = s.v := rfl
@[simp] theorem State.setKeys_i (k : Word) : (s.setKeys k).i = s.i := rfl
@[simp] theorem State.setKeys_pc (k : Word) : (s.setKeys k).pc = s.pc := rfl
@[simp] theorem State.setKeys_sp (k : Word) : (s.setKeys k).sp = s.sp := rfl
@[simp] theorem State.setKeys_dt (k : Word) : (s.setKeys k).dt = s.dt := rfl
@[simp] theorem State.setKeys_st (k : Word) : (s.setKeys k).st = s.st := rfl
@[simp] theorem State.setKeys_cyc (k : Word) : (s.setKeys k).cyc = s.cyc := rfl
@[simp] theorem State.setKeys_running (k : Word) : (s.setKeys k).running = s.running := rfl
@[simp] theorem State.setKeys_awaitingKey (k : Word) : (s.setKeys k).awaitingKey = s.awaitingKey := rfl
@[simp] theorem State.setKeys_wreg (k : Word) : (s.setKeys k).wreg = s.wreg := rfl
@[simp] theorem State.setKeys_keys (k : Word) : (s.setKeys k).keys = k := rfl
@[simp] theorem State.setKeys_stack (k : Word) : (s.setKeys k).stack = s.stack := rfl
@[simp] theorem State.setKeys_fb (k : Word) : (s.setKeys k).fb = s.fb := rfl
@[simp] theorem State.setKeys_img (k : Word) : (s.setKeys k).img = s.img := rfl
@[simp] theorem State.setKeys_mem (k : Word) : (s.setKeys k).mem = s.mem := rfl
@[simp] theorem State.setKeys_rndIn (k : Word) : (s.setKeys k).rndIn = s.rndIn := rfl
@[simp] theorem State.setKeys_rndCount (k : Word) : (s.setKeys k).rndCount = s.rndCount := rfl
@[simp] theorem State.getV_setKeys (k : Word) (y : Reg) : (s.setKeys k).getV y = s.getV y := rfl
@[simp] theorem State.memRead_setKeys (k : Word) (c : Nat) : (s.setKeys k).memRead c = s.memRead c := rfl
@[simp] theorem State.stackRead_setKeys (k : Word) (j : Nat) : (s.setKeys k).stackRead j = s.stackRead j := rfl
@[simp] theorem State.pixel_setKeys (k : Word) (c r : Nat) : (s.setKeys k).pixel c r = s.pixel c r := rfl
@[simp] theorem State.imageByte_setKeys (k : Word) (j : Nat) : (s.setKeys k).imageByte j = s.imageByte j := rfl

end Sys2Proof.Machine
end

