-- ==== Sys2Proof/Laws/Ops.lean ====
section
/-! SUPPORT. One lemma per shared operation: what it does to every part of the state. -/

namespace Sys2Proof.Machine

variable (s : State)

/-! ## Reads after writes -/

@[simp] theorem State.getV_setV (x y : Reg) (b : Byte) : (s.setV x b).getV y = if y = x then b else s.getV y := by
  simp only [State.getV, State.setV, Fin.getElem_fin, Vector.getElem_set, Fin.ext_iff, eq_comm]

theorem State.memRead_memWrite (a c : Nat) (b : Byte) :
    (s.memWrite a b).memRead c = if c % 4096 = a % 4096 then b else s.memRead c :=
  Memory.read_write _ _ _ _ _

theorem State.stackRead_stackWrite (k j : Nat) (b : Byte) :
    (s.stackWrite k b).stackRead j = if j % 256 = k % 256 then b else s.stackRead j :=
  Memory.read_write _ _ _ _ _

@[simp] theorem State.memRead_mod (a : Nat) : s.memRead (a % 4096) = s.memRead a := by
  simp [State.memRead]

@[simp] theorem State.stackRead_mod (k : Nat) : s.stackRead (k % 256) = s.stackRead k := by
  simp [State.stackRead]

theorem State.memRead_congr (a c : Nat) (h : a % 4096 = c % 4096) : s.memRead a = s.memRead c := by
  rw [← State.memRead_mod, h, State.memRead_mod]

theorem pixelIndex_lt (x y : Nat) : pixelIndex x y < 2048 := by
  unfold pixelIndex
  omega

theorem pixelIndex_eq_iff (x y c r : Nat) : pixelIndex c r = pixelIndex x y ↔ c % 64 = x % 64 ∧ r % 32 = y % 32 := by
  unfold pixelIndex
  omega

theorem pixelOf_setPixel (fb : Memory) (x y c r : Nat) (b : Byte) :
    pixelOf (setPixel fb x y b) c r = if c % 64 = x % 64 ∧ r % 32 = y % 32 then b else pixelOf fb c r := by
  simp only [pixelOf, setPixel, Memory.read_write, pixelIndex_eq_iff]

theorem pixelOf_wrap (fb : Memory) (x y c r : Nat) (hx : x % 64 = c % 64) (hy : y % 32 = r % 32) :
    pixelOf fb x y = pixelOf fb c r := by
  simp only [pixelOf, (pixelIndex_eq_iff c r x y).2 ⟨hx, hy⟩]

@[simp] theorem pixelOf_nil (x y : Nat) : pixelOf [] x y = 0 := rfl

@[simp] theorem State.pixel_setFB (m : Memory) (x y : Nat) : (s.setFB m).pixel x y = pixelOf m x y := rfl

/-! ## Skips -/

@[simp] theorem State.skipIf_pc (c : Bool) : (s.skipIf c).pc = if c then s.pc + 2 else s.pc := by
  cases c <;> rfl

/-- A skip writes nothing but `PC`. -/
theorem State.skipIf_eq (c : Bool) : s.skipIf c = s.setPC (if c then s.pc + 2 else s.pc) := by
  cases c <;> rfl

/-! ## Call stack -/

@[simp] theorem State.push_sp (a : Word) : (s.push a).sp = s.sp + 2 := rfl

/-- What `Push` leaves on the stack: the two bytes at `SP` and `SP + 1`, and nothing else is changed there. -/
theorem State.stackRead_push (a : Word) (j : Nat) :
    (s.push a).stackRead j =
      if j % 256 = (s.sp.toNat + 1) % 256 then a.extractLsb' 0 8
      else if j % 256 = s.sp.toNat % 256 then a.extractLsb' 8 8 else s.stackRead j := by
  simp [State.push, State.stackRead_stackWrite]

/-- `SP` after any number of pushes. -/
theorem State.foldl_push_sp (words : List Word) :
    (words.foldl State.push s).sp.toNat = (s.sp.toNat + 2 * words.length) % 256 := by
  induction words generalizing s with
  | nil => exact (Nat.mod_eq_of_lt s.sp.isLt).symm
  | cons a words ih =>
    rw [List.foldl_cons, ih, State.push_sp, List.length_cons, BitVec.toNat_add, show (2 : Byte).toNat = 2 from rfl]
    omega

/-! ## The fetch -/

/-- The fetched word, byte by byte: `d` is 0 for the high byte and 1 for the low byte. -/
theorem State.fetchWord_byte (d : Nat) (hd : d < 2) :
    s.fetchWord.toNat / 256 ^ (1 - d) % 256 = (s.memRead (s.pc.toNat + d)).toNat := by
  have hword : s.fetchWord.toNat = (s.memRead s.pc.toNat).toNat * 256 + (s.memRead (s.pc.toNat + 1)).toNat := by
    unfold State.fetchWord wordOfBytes
    rw [BitVec.toNat_append, ← Nat.shiftLeft_add_eq_or_of_lt (BitVec.isLt _), Nat.shiftLeft_eq]
  have hhi := (s.memRead s.pc.toNat).isLt
  have hlo := (s.memRead (s.pc.toNat + 1)).isLt
  rw [hword]
  interval_cases d
  · simp only [Nat.sub_zero, pow_one, Nat.add_zero]
    omega
  · simp only [Nat.sub_self, pow_zero, Nat.div_one]
    omega

/-! ## The end of a Step -/

/-- The count and the tick change `CYC`, `DT` and `ST` and nothing else. -/
theorem State.countCycle_eq :
    s.countCycle =
      if s.cyc + 10 < 100 then { s with cyc := s.cyc + 10 }
      else { s with cyc := s.cyc + 10 - 100, dt := decTimer s.dt, st := decTimer s.st } := by
  unfold State.countCycle
  by_cases h : s.cyc + 10 < 100
  · rw [if_neg (by omega), if_pos h]
    rfl
  · rw [if_pos (by omega), if_neg h]
    rfl

/-- What an executed Step adds after the instruction. -/
theorem State.endStep_eq :
    s.endStep =
      if s.cyc + 10 < 100 then { s with cyc := s.cyc + 10, rndIn := none, rndCount := s.rndCount + 1 }
      else { s with cyc := s.cyc + 10 - 100, dt := decTimer s.dt, st := decTimer s.st, rndIn := none, rndCount := s.rndCount + 1 } := by
  rw [State.endStep, State.countCycle_eq]
  split <;> rfl

/-- The parts of the state the end of a Step leaves alone. -/
theorem State.endStep_frame :
    s.endStep = { s with cyc := s.endStep.cyc, dt := s.endStep.dt, st := s.endStep.st, rndIn := none,
                         rndCount := s.rndCount + 1 } := by
  rw [State.endStep_eq]
  split <;> rfl

@[simp] theorem State.endStep_pc : s.endStep.pc = s.pc := by
  rw [State.endStep_frame]

@[simp] theorem State.memRead_endStep (a : Nat) : s.endStep.memRead a = s.memRead a := by
  rw [State.endStep_frame]
  rfl

/-! ## The step -/

theorem step_of_gateClosed (h : s.gateOpen = false) : step s = .next s := by
  simp [step, h]

theorem step_of_gateOpen (h : s.gateOpen = true) (u : State) (hu : exec (decode s.fetchWord) s.preAdvance = .next u) :
    step s = .next u.endStep := by
  simp [step, h, hu]

/-- Everything a Step can do: nothing, or the decoded instruction after the pre-advance and then the end of the Step. -/
theorem step_cases (t : State) (h : step s = .next t) :
    (s.gateOpen = false ∧ t = s) ∨
    (s.gateOpen = true ∧ ∃ u, exec (decode s.fetchWord) s.preAdvance = .next u ∧ t = u.endStep) := by
  unfold step at h
  split at h
  · next hg =>
    split at h
    · next u hu => exact .inr ⟨hg, u, hu, by simpa using h.symm⟩
    · cases h
    · cases h
  · next hg => exact .inl ⟨by simpa using hg, by simpa using h.symm⟩

end Sys2Proof.Machine
end

