-- ==== Sys2Proof/Laws/Blit.lean ====
section
/-! SUPPORT. The XOR-blit engine: the pixel it leaves at every place, and its collision flag. -/

namespace Sys2Proof.Machine

/-- The pixel the blit leaves where a sprite bit is 1. -/
def toggled (p : Byte) : Byte := if p = 0xFF then 0x00 else 0xFF

theorem pixelOf_blitPixel (x y c r : Nat) (acc : Memory × Bool) :
    pixelOf (blitPixel x y acc).1 c r =
      if c % 64 = x % 64 ∧ r % 32 = y % 32 then toggled (pixelOf acc.1 c r) else pixelOf acc.1 c r := by
  unfold blitPixel toggled
  by_cases h : c % 64 = x % 64 ∧ r % 32 = y % 32
  · rw [pixelOf_wrap acc.1 c r x y h.1 h.2]
    split <;> simp [pixelOf_setPixel, h]
  · split <;> simp [pixelOf_setPixel, h]

theorem blitPixel_hit (x y : Nat) (acc : Memory × Bool) :
    (blitPixel x y acc).2 = (acc.2 || decide (pixelOf acc.1 x y = 0xFF)) := by
  unfold blitPixel
  split <;> simp_all

/-- The first `n` columns of a row touch exactly the columns of their 1 bits. -/
theorem pixelOf_blitRow (b : Byte) (x0 y n : Nat) (hn : n ≤ 8) (acc : Memory × Bool) (c r : Nat) :
    pixelOf (blitRow b x0 y n acc).1 c r =
      if ∃ k < n, spriteBit b k = true ∧ c % 64 = (x0 + k) % 64 ∧ r % 32 = y % 32
      then toggled (pixelOf acc.1 c r) else pixelOf acc.1 c r := by
  induction n with
  | zero => simp [blitRow]
  | succ n ih =>
    have ih := ih (by omega)
    unfold blitRow
    by_cases hb : spriteBit b n = true
    · rw [if_pos hb, pixelOf_blitPixel, ih]
      by_cases h : c % 64 = (x0 + n) % 64 ∧ r % 32 = y % 32
      · have hnot : ¬ ∃ k < n, spriteBit b k = true ∧ c % 64 = (x0 + k) % 64 ∧ r % 32 = y % 32 := by
          rintro ⟨k, hk, -, hc, -⟩
          omega
        rw [if_pos h, if_neg hnot, if_pos ⟨n, by omega, hb, h⟩]
      · rw [if_neg h]
        congr 1
        refine propext ⟨fun ⟨k, hk, e⟩ => ⟨k, by omega, e⟩, fun ⟨k, hk, e⟩ => ?_⟩
        rcases Nat.lt_or_ge k n with hlt | hge
        · exact ⟨k, hlt, e⟩
        · obtain rfl : k = n := by omega
          exact absurd e.2 h
    · rw [if_neg hb, ih]
      congr 1
      refine propext ⟨fun ⟨k, hk, e⟩ => ⟨k, by omega, e⟩, fun ⟨k, hk, e⟩ => ?_⟩
      rcases Nat.lt_or_ge k n with hlt | hge
      · exact ⟨k, hlt, e⟩
      · obtain rfl : k = n := by omega
        exact absurd e.1 hb

/-- A row reports a collision exactly where a 1 bit meets a pixel that was on. -/
theorem blitRow_hit (b : Byte) (x0 y n : Nat) (hn : n ≤ 8) (acc : Memory × Bool) :
    (blitRow b x0 y n acc).2 = true ↔
      acc.2 = true ∨ ∃ k < n, spriteBit b k = true ∧ pixelOf acc.1 (x0 + k) y = 0xFF := by
  induction n with
  | zero => simp [blitRow]
  | succ n ih =>
    have ih := ih (by omega)
    unfold blitRow
    by_cases hb : spriteBit b n = true
    · have hfree : ¬ ∃ k < n, spriteBit b k = true ∧ (x0 + n) % 64 = (x0 + k) % 64 ∧ y % 32 = y % 32 := by
        rintro ⟨k, hk, -, hc, -⟩
        omega
      rw [if_pos hb, blitPixel_hit, pixelOf_blitRow b x0 y n (by omega), if_neg hfree, Bool.or_eq_true, ih,
        decide_eq_true_eq]
      constructor
      · rintro ((h | ⟨k, hk, e⟩) | h)
        · exact .inl h
        · exact .inr ⟨k, by omega, e⟩
        · exact .inr ⟨n, by omega, hb, h⟩
      · rintro (h | ⟨k, hk, e⟩)
        · exact .inl (.inl h)
        · rcases Nat.lt_or_ge k n with hlt | hge
          · exact .inl (.inr ⟨k, hlt, e⟩)
          · obtain rfl : k = n := by omega
            exact .inr e.2
    · rw [if_neg hb, ih]
      constructor
      · rintro (h | ⟨k, hk, e⟩)
        · exact .inl h
        · exact .inr ⟨k, by omega, e⟩
      · rintro (h | ⟨k, hk, e⟩)
        · exact .inl h
        · rcases Nat.lt_or_ge k n with hlt | hge
          · exact .inr ⟨k, hlt, e⟩
          · obtain rfl : k = n := by omega
            exact absurd e.1 hb

/-- The first `n` rows of a sprite of at most 32 rows toggle exactly the pixels under their 1 bits: rows do not overlap. -/
theorem pixelOf_blitRows (rows : Nat → Byte) (x0 y0 n : Nat) (hn : n ≤ 32) (acc : Memory × Bool) (c r : Nat) :
    ((∃ j k, j < n ∧ k < 8 ∧ spriteBit (rows j) k = true ∧ c % 64 = (x0 + k) % 64 ∧ r % 32 = (y0 + j) % 32) →
      pixelOf (blitRows rows x0 y0 n acc).1 c r = toggled (pixelOf acc.1 c r)) ∧
    ((¬ ∃ j k, j < n ∧ k < 8 ∧ spriteBit (rows j) k = true ∧ c % 64 = (x0 + k) % 64 ∧ r % 32 = (y0 + j) % 32) →
      pixelOf (blitRows rows x0 y0 n acc).1 c r = pixelOf acc.1 c r) := by
  induction n with
  | zero => exact ⟨fun ⟨_, _, h, _⟩ => absurd h (Nat.not_lt_zero _), fun _ => rfl⟩
  | succ n ih =>
    obtain ⟨hin, hout⟩ := ih (by omega)
    simp only [blitRows]
    rw [pixelOf_blitRow _ _ _ _ (le_refl _)]
    by_cases h : ∃ k < 8, spriteBit (rows n) k = true ∧ c % 64 = (x0 + k) % 64 ∧ r % 32 = (y0 + n) % 32
    · have hno : ¬ ∃ j k, j < n ∧ k < 8 ∧ spriteBit (rows j) k = true ∧ c % 64 = (x0 + k) % 64 ∧ r % 32 = (y0 + j) % 32 := by
        rintro ⟨j, k, hj, -, -, -, hr⟩
        obtain ⟨-, -, -, -, hr'⟩ := h
        omega
      rw [if_pos h, hout hno]
      obtain ⟨k, hk⟩ := h
      exact ⟨fun _ => rfl, fun hnot => absurd ⟨n, k, Nat.lt_succ_self n, hk⟩ hnot⟩
    · rw [if_neg h]
      refine ⟨fun ⟨j, k, hj, e⟩ => hin ?_, fun hnot => hout fun ⟨j, k, hj, e⟩ => hnot ⟨j, k, by omega, e⟩⟩
      rcases Nat.lt_or_ge j n with hlt | hge
      · exact ⟨j, k, hlt, e⟩
      · obtain rfl : j = n := by omega
        exact absurd ⟨k, e⟩ h

/-- A sprite of at most 32 rows reports a collision exactly where one of its 1 bits meets a pixel that was on. -/
theorem blitRows_hit (rows : Nat → Byte) (x0 y0 n : Nat) (hn : n ≤ 32) (acc : Memory × Bool) :
    (blitRows rows x0 y0 n acc).2 = true ↔
      acc.2 = true ∨
        ∃ j k, j < n ∧ k < 8 ∧ spriteBit (rows j) k = true ∧ pixelOf acc.1 (x0 + k) (y0 + j) = 0xFF := by
  induction n with
  | zero => simp [blitRows]
  | succ n ih =>
    have hrow : ∀ k, pixelOf (blitRows rows x0 y0 n acc).1 (x0 + k) (y0 + n) = pixelOf acc.1 (x0 + k) (y0 + n) := by
      intro k
      refine (pixelOf_blitRows rows x0 y0 n (by omega) acc _ _).2 ?_
      rintro ⟨j, k', hj, -, -, -, hr⟩
      omega
    simp only [blitRows]
    rw [blitRow_hit _ _ _ _ (le_refl _), ih (by omega)]
    simp only [hrow]
    constructor
    · rintro ((h | ⟨j, k, hj, e⟩) | ⟨k, e⟩)
      · exact .inl h
      · exact .inr ⟨j, k, by omega, e⟩
      · exact .inr ⟨n, k, by omega, e⟩
    · rintro (h | ⟨j, k, hj, e⟩)
      · exact .inl (.inl h)
      · rcases Nat.lt_or_ge j n with hlt | hge
        · exact .inl (.inr ⟨j, k, hlt, e⟩)
        · obtain rfl : j = n := by omega
          exact .inr ⟨k, e⟩

end Sys2Proof.Machine
end

