-- ==== Sys2Proof/Laws/Blocks.lean ====
section
/-! SUPPORT. The block store and load: what they do to memory and registers, and what they leave alone. -/

namespace Sys2Proof.Machine

variable (s : State)

/-- The block store changes MEM and nothing else. -/
theorem storeBlock_frame (n : Nat) : storeBlock n s = { s with mem := (storeBlock n s).mem } := by
  induction n with
  | zero => rfl
  | succ n ih =>
    simp only [storeBlock]
    rw [ih]
    rfl

/-- The bytes after a block store of at most 16 registers. -/
theorem memRead_storeBlock (n : Nat) (hn : n ≤ 16) (a : Nat) :
    (storeBlock n s).memRead a =
      if (a % 4096 + 4096 - s.i.toNat % 4096) % 4096 < n
      then s.getV (Fin.ofNat 16 ((a % 4096 + 4096 - s.i.toNat % 4096) % 4096)) else s.memRead a := by
  induction n with
  | zero => rfl
  | succ n ih =>
    simp only [storeBlock, State.memRead_memWrite, ih (by omega), State.ea]
    by_cases h : a % 4096 = (s.i.toNat + n) % 4096 % 4096
    · have hk : (a % 4096 + 4096 - s.i.toNat % 4096) % 4096 = n := by omega
      rw [if_pos h, hk, if_pos (Nat.lt_succ_self n)]
    · have hk : (a % 4096 + 4096 - s.i.toNat % 4096) % 4096 ≠ n := by omega
      rw [if_neg h]
      by_cases hlt : (a % 4096 + 4096 - s.i.toNat % 4096) % 4096 < n
      · rw [if_pos hlt, if_pos (by omega)]
      · rw [if_neg hlt, if_neg (by omega)]

/-- The block load changes the registers and nothing else. -/
theorem loadBlock_frame (n : Nat) : loadBlock n s = { s with v := (loadBlock n s).v } := by
  induction n with
  | zero => rfl
  | succ n ih =>
    simp only [loadBlock]
    rw [ih]
    rfl

/-- The registers after a block load of at most 16 registers. -/
theorem getV_loadBlock (n : Nat) (hn : n ≤ 16) (x : Reg) :
    (loadBlock n s).getV x = if x.val < n then s.memRead (s.i.toNat + x.val) else s.getV x := by
  induction n with
  | zero => rfl
  | succ n ih =>
    simp only [loadBlock, State.getV_setV, ih (by omega), State.ea, State.memRead_mod]
    by_cases h : x = Fin.ofNat 16 n
    · have hx : x.val = n := by
        rw [h]
        exact Nat.mod_eq_of_lt (by omega)
      rw [if_pos h, if_pos (by omega), hx]
    · have hx : x.val ≠ n := by
        intro hx
        exact h (Fin.ext (by rw [hx]; exact (Nat.mod_eq_of_lt (by omega)).symm))
      rw [if_neg h]
      by_cases hlt : x.val < n
      · rw [if_pos hlt, if_pos (by omega)]
      · rw [if_neg hlt, if_neg (by omega)]

end Sys2Proof.Machine
end

