-- ==== Sys2Proof/Laws/Decode.lean ====
section
/-! SUPPORT. The fields of a word and the words of fields as numbers: a word is rebuilt from its fields, and an encoded word
has the fields it was made of. -/

namespace Sys2Proof

/-! ## Fields as numbers -/

theorem opG_toNat (op : Word) : (opG op).toNat = op.toNat / 4096 := by
  have := op.isLt
  simp only [opG, BitVec.extractLsb'_toNat, Nat.shiftRight_eq_div_pow]
  omega

theorem opX_val (op : Word) : (opX op).val = op.toNat / 256 % 16 := by
  simp only [opX, BitVec.extractLsb', Nat.shiftRight_eq_div_pow]
  rfl

theorem opY_val (op : Word) : (opY op).val = op.toNat / 16 % 16 := by
  simp only [opY, BitVec.extractLsb', Nat.shiftRight_eq_div_pow]
  rfl

theorem opN_toNat (op : Word) : (opN op).toNat = op.toNat % 16 := by
  simp only [opN, BitVec.extractLsb'_toNat, Nat.shiftRight_zero]

theorem opNN_toNat (op : Word) : (opNN op).toNat = op.toNat % 256 := by
  simp only [opNN, BitVec.extractLsb'_toNat, Nat.shiftRight_zero]

theorem opNNN_toNat (op : Word) : (opNNN op).toNat = op.toNat % 4096 := by
  simp only [opNNN, BitVec.extractLsb'_toNat, Nat.shiftRight_zero]

/-! ## Words as numbers -/

theorem append_toNat {m n : Nat} (a : BitVec m) (b : BitVec n) : (a ++ b).toNat = a.toNat * 2 ^ n + b.toNat := by
  rw [BitVec.toNat_append, ← Nat.shiftLeft_add_eq_or_of_lt b.isLt, Nat.shiftLeft_eq]

theorem wordA_toNat (g : Nibble) (nnn : Addr) : (wordA g nnn).toNat = g.toNat * 4096 + nnn.toNat :=
  append_toNat g nnn

theorem wordRI_toNat (g : Nibble) (x : Reg) (nn : Byte) :
    (wordRI g x nn).toNat = (g.toNat * 16 + x.val) * 256 + nn.toNat := by
  refine (append_toNat (g ++ (BitVec.ofFin x : Nibble)) nn).trans ?_
  rw [append_toNat]
  rfl

theorem wordRR_toNat (g : Nibble) (x y : Reg) (n : Nibble) :
    (wordRR g x y n).toNat = ((g.toNat * 16 + x.val) * 16 + y.val) * 16 + n.toNat := by
  refine (append_toNat (g ++ (BitVec.ofFin x : Nibble) ++ (BitVec.ofFin y : Nibble)) n).trans ?_
  rw [append_toNat, append_toNat]
  rfl

/-! ## The fields of an encoded word -/

@[simp] theorem opG_wordA (g : Nibble) (nnn : Addr) : opG (wordA g nnn) = g := by
  apply BitVec.eq_of_toNat_eq
  rw [opG_toNat, wordA_toNat]
  omega

@[simp] theorem opNNN_wordA (g : Nibble) (nnn : Addr) : opNNN (wordA g nnn) = nnn := by
  apply BitVec.eq_of_toNat_eq
  rw [opNNN_toNat, wordA_toNat]
  omega

@[simp] theorem opG_wordRI (g : Nibble) (x : Reg) (nn : Byte) : opG (wordRI g x nn) = g := by
  apply BitVec.eq_of_toNat_eq
  rw [opG_toNat, wordRI_toNat]
  omega

@[simp] theorem opX_wordRI (g : Nibble) (x : Reg) (nn : Byte) : opX (wordRI g x nn) = x := by
  apply Fin.ext
  rw [opX_val, wordRI_toNat]
  omega

@[simp] theorem opNN_wordRI (g : Nibble) (x : Reg) (nn : Byte) : opNN (wordRI g x nn) = nn := by
  apply BitVec.eq_of_toNat_eq
  rw [opNN_toNat, wordRI_toNat]
  omega

@[simp] theorem opG_wordRR (g : Nibble) (x y : Reg) (n : Nibble) : opG (wordRR g x y n) = g := by
  apply BitVec.eq_of_toNat_eq
  rw [opG_toNat, wordRR_toNat]
  omega

@[simp] theorem opX_wordRR (g : Nibble) (x y : Reg) (n : Nibble) : opX (wordRR g x y n) = x := by
  apply Fin.ext
  rw [opX_val, wordRR_toNat]
  omega

@[simp] theorem opY_wordRR (g : Nibble) (x y : Reg) (n : Nibble) : opY (wordRR g x y n) = y := by
  apply Fin.ext
  rw [opY_val, wordRR_toNat]
  omega

@[simp] theorem opN_wordRR (g : Nibble) (x y : Reg) (n : Nibble) : opN (wordRR g x y n) = n := by
  apply BitVec.eq_of_toNat_eq
  rw [opN_toNat, wordRR_toNat]
  omega

/-! ## A word from its fields -/

theorem wordA_fields (op : Word) : wordA (opG op) (opNNN op) = op := by
  apply BitVec.eq_of_toNat_eq
  rw [wordA_toNat, opG_toNat, opNNN_toNat]
  omega

theorem wordRI_fields (op : Word) : wordRI (opG op) (opX op) (opNN op) = op := by
  apply BitVec.eq_of_toNat_eq
  rw [wordRI_toNat, opG_toNat, opX_val, opNN_toNat]
  omega

theorem wordRR_fields (op : Word) : wordRR (opG op) (opX op) (opY op) (opN op) = op := by
  apply BitVec.eq_of_toNat_eq
  rw [wordRR_toNat, opG_toNat, opX_val, opY_val, opN_toNat]
  omega

/-! ## The two bytes of a word -/

theorem wordOfBytes_toNat (hi lo : Byte) : (wordOfBytes hi lo).toNat = hi.toNat * 256 + lo.toNat :=
  append_toNat hi lo

theorem bytesOfWord_eq (op : Word) : ∃ hi lo, bytesOfWord op = [hi, lo] ∧ wordOfBytes hi lo = op := by
  refine ⟨_, _, rfl, BitVec.eq_of_toNat_eq ?_⟩
  have := op.isLt
  rw [wordOfBytes_toNat, BitVec.extractLsb'_toNat, BitVec.extractLsb'_toNat, Nat.shiftRight_eq_div_pow]
  simp only [Nat.shiftRight_zero]
  omega

/-! ## The opcode map: a row's mask keeps the fields its selector names -/

theorem wordA_getLsbD (g : Nibble) (nnn : Addr) (k : Nat) :
    (wordA g nnn).getLsbD k = if k < 12 then nnn.getLsbD k else g.getLsbD (k - 12) := by
  unfold wordA
  erw [BitVec.getLsbD_append]

theorem wordRI_getLsbD (g : Nibble) (x : Reg) (nn : Byte) (k : Nat) :
    (wordRI g x nn).getLsbD k =
      if k < 8 then nn.getLsbD k
      else if k < 12 then (BitVec.ofFin x : Nibble).getLsbD (k - 8) else g.getLsbD (k - 12) := by
  unfold wordRI
  erw [BitVec.getLsbD_append, BitVec.getLsbD_append]
  rw [show k - 8 - 4 = k - 12 by omega]
  repeat' split
  all_goals first | rfl | omega

theorem wordRR_getLsbD (g : Nibble) (x y : Reg) (n : Nibble) (k : Nat) :
    (wordRR g x y n).getLsbD k =
      if k < 4 then n.getLsbD k
      else if k < 8 then (BitVec.ofFin y : Nibble).getLsbD (k - 4)
      else if k < 12 then (BitVec.ofFin x : Nibble).getLsbD (k - 8) else g.getLsbD (k - 12) := by
  unfold wordRR
  erw [BitVec.getLsbD_append, BitVec.getLsbD_append, BitVec.getLsbD_append]
  rw [show k - 4 - 4 - 4 = k - 12 by omega, show k - 4 - 4 = k - 8 by omega]
  repeat' split
  all_goals first | rfl | omega

theorem and_groupMask (op : Word) : op &&& 0xF000#16 = wordA (opG op) 0 := by
  apply BitVec.eq_of_getLsbD_eq
  intro k hk
  rw [wordA_getLsbD, BitVec.getLsbD_and, opG, BitVec.getLsbD_extractLsb']
  interval_cases k <;> simp

theorem and_nibbleMask (op : Word) : op &&& 0xF00F#16 = wordRR (opG op) 0 0 (opN op) := by
  apply BitVec.eq_of_getLsbD_eq
  intro k hk
  rw [wordRR_getLsbD, BitVec.getLsbD_and, opG, opN, BitVec.getLsbD_extractLsb', BitVec.getLsbD_extractLsb']
  interval_cases k <;> simp

theorem and_byteMask (op : Word) : op &&& 0xF0FF#16 = wordRI (opG op) 0 (opNN op) := by
  apply BitVec.eq_of_getLsbD_eq
  intro k hk
  rw [wordRI_getLsbD, BitVec.getLsbD_and, opG, opNN, BitVec.getLsbD_extractLsb', BitVec.getLsbD_extractLsb']
  interval_cases k <;> simp

/-- A row with a group mask selects by the group. -/
theorem selects_group (op v : Word) (m : String) (h : wordA (opG v) 0 = v) :
    (OpcodeRow.mk m 0xF000#16 v).selects op = decide (opG op = opG v) := by
  simp only [OpcodeRow.selects, and_groupMask, beq_eq_decide, decide_eq_decide]
  exact ⟨fun e => by simpa using congrArg opG e, fun e => by rw [e, h]⟩

/-- A row with a nibble selector selects by the group and the low nibble. -/
theorem selects_nibble (op v : Word) (m : String) (h : wordRR (opG v) 0 0 (opN v) = v) :
    (OpcodeRow.mk m 0xF00F#16 v).selects op = decide (opG op = opG v ∧ opN op = opN v) := by
  simp only [OpcodeRow.selects, and_nibbleMask, beq_eq_decide, decide_eq_decide]
  exact ⟨fun e => ⟨by simpa using congrArg opG e, by simpa using congrArg opN e⟩, fun e => by rw [e.1, e.2, h]⟩

/-- A row with a byte selector selects by the group and the low byte. -/
theorem selects_byte (op v : Word) (m : String) (h : wordRI (opG v) 0 (opNN v) = v) :
    (OpcodeRow.mk m 0xF0FF#16 v).selects op = decide (opG op = opG v ∧ opNN op = opNN v) := by
  simp only [OpcodeRow.selects, and_byteMask, beq_eq_decide, decide_eq_decide]
  exact ⟨fun e => ⟨by simpa using congrArg opG e, by simpa using congrArg opNN e⟩, fun e => by rw [e.1, e.2, h]⟩

/-- A row with a whole-word mask selects its own word. -/
theorem selects_word (op v : Word) (m : String) : (OpcodeRow.mk m 0xFFFF#16 v).selects op = decide (op = v) := by
  have h : op &&& 0xFFFF#16 = op := by simpa using BitVec.and_allOnes (x := op)
  simp only [OpcodeRow.selects, h, beq_eq_decide]

end Sys2Proof
end

