-- ==== Sys2Proof/Laws/PerInstr.lean ====
section
/-! SUPPORT. Statements made per instruction. `DecodeEncode`: the decoder reads back a well-formed instruction's word. -/

namespace Sys2Proof.Laws.DecodeEncode

/-- Decoding the word of a well-formed instruction gives the instruction back. -/
def Statement (i : Instr) : Prop := i.wellFormed = true → decode (encode i) = i

/-- `unhandledWord`, in the fields the decoder looks at. -/
theorem unhandledWord_fields (op : Word) (h : unhandledWord op = true) :
    ((opG op).toNat = 5 ∧ (opN op).toNat ≠ 0) ∨
    ((opG op).toNat = 8 ∧ (opN op).toNat ∈ [8, 9, 10, 11, 12, 13, 15]) ∨
    ((opG op).toNat = 9 ∧ (opN op).toNat ≠ 0) ∨
    ((opG op).toNat = 14 ∧ (opNN op).toNat ≠ 0x9E ∧ (opNN op).toNat ≠ 0xA1) ∨
    ((opG op).toNat = 15 ∧ (opNN op).toNat ∉ [0x07, 0x0A, 0x15, 0x18, 0x1E, 0x29, 0x33, 0x55, 0x65]) := by
  rw [opG_toNat, opN_toNat, opNN_toNat]
  simpa [unhandledWord, or_assoc, and_assoc] using h

theorem cls : Statement .cls := fun _ => by decide

theorem ret : Statement .ret := fun _ => by decide

theorem sys (nnn : Addr) : Statement (.sys nnn) := by
  intro h
  have h0 : wordA 0#4 nnn ≠ 0x00E0#16 := by
    intro e
    have hn : nnn = 0x0E0#12 := (opNNN_wordA 0#4 nnn).symm.trans ((congrArg opNNN e).trans (by decide))
    simp [Instr.wellFormed, sysOperandOk, hn] at h
  have h1 : wordA 0#4 nnn ≠ 0x00EE#16 := by
    intro e
    have hn : nnn = 0x0EE#12 := (opNNN_wordA 0#4 nnn).symm.trans ((congrArg opNNN e).trans (by decide))
    simp [Instr.wellFormed, sysOperandOk, hn] at h
  simp [encode, decode, h0, h1]

theorem jp (nnn : Addr) : Statement (.jp nnn) := fun _ => by simp [encode, decode]

theorem call (nnn : Addr) : Statement (.call nnn) := fun _ => by simp [encode, decode]

theorem seByte (x : Reg) (nn : Byte) : Statement (.seByte x nn) := fun _ => by simp [encode, decode]

theorem sneByte (x : Reg) (nn : Byte) : Statement (.sneByte x nn) := fun _ => by simp [encode, decode]

theorem seReg (x y : Reg) : Statement (.seReg x y) := fun _ => by simp [encode, decode]

theorem ldByte (x : Reg) (nn : Byte) : Statement (.ldByte x nn) := fun _ => by simp [encode, decode]

theorem addByte (x : Reg) (nn : Byte) : Statement (.addByte x nn) := fun _ => by simp [encode, decode]

theorem ldReg (x y : Reg) : Statement (.ldReg x y) := fun _ => by simp [encode, decode, decodeGroup8]

theorem orReg (x y : Reg) : Statement (.orReg x y) := fun _ => by simp [encode, decode, decodeGroup8]

theorem andReg (x y : Reg) : Statement (.andReg x y) := fun _ => by simp [encode, decode, decodeGroup8]

theorem xorReg (x y : Reg) : Statement (.xorReg x y) := fun _ => by simp [encode, decode, decodeGroup8]

theorem addReg (x y : Reg) : Statement (.addReg x y) := fun _ => by simp [encode, decode, decodeGroup8]

theorem subReg (x y : Reg) : Statement (.subReg x y) := fun _ => by simp [encode, decode, decodeGroup8]

theorem shr (x y : Reg) : Statement (.shr x y) := fun _ => by simp [encode, decode, decodeGroup8]

theorem subnReg (x y : Reg) : Statement (.subnReg x y) := fun _ => by simp [encode, decode, decodeGroup8]

theorem shl (x y : Reg) : Statement (.shl x y) := fun _ => by simp [encode, decode, decodeGroup8]

theorem sneReg (x y : Reg) : Statement (.sneReg x y) := fun _ => by simp [encode, decode]

theorem ldI (nnn : Addr) : Statement (.ldI nnn) := fun _ => by simp [encode, decode]

theorem jpV0 (nnn : Addr) : Statement (.jpV0 nnn) := fun _ => by simp [encode, decode]

theorem rnd (x : Reg) (nn : Byte) : Statement (.rnd x nn) := fun _ => by simp [encode, decode]

theorem drw (x y : Reg) (n : Nibble) : Statement (.drw x y n) := fun _ => by simp [encode, decode]

theorem skp (x : Reg) : Statement (.skp x) := fun _ => by simp [encode, decode, decodeGroupE]

theorem sknp (x : Reg) : Statement (.sknp x) := fun _ => by simp [encode, decode, decodeGroupE]

theorem ldVxDT (x : Reg) : Statement (.ldVxDT x) := fun _ => by simp [encode, decode, decodeGroupF]

theorem ldVxK (x : Reg) : Statement (.ldVxK x) := fun _ => by simp [encode, decode, decodeGroupF]

theorem ldDTVx (x : Reg) : Statement (.ldDTVx x) := fun _ => by simp [encode, decode, decodeGroupF]

theorem ldSTVx (x : Reg) : Statement (.ldSTVx x) := fun _ => by simp [encode, decode, decodeGroupF]

theorem addIVx (x : Reg) : Statement (.addIVx x) := fun _ => by simp [encode, decode, decodeGroupF]

theorem ldFVx (x : Reg) : Statement (.ldFVx x) := fun _ => by simp [encode, decode, decodeGroupF]

theorem ldBVx (x : Reg) : Statement (.ldBVx x) := fun _ => by simp [encode, decode, decodeGroupF]

theorem storeRegs (x : Reg) : Statement (.storeRegs x) := fun _ => by simp [encode, decode, decodeGroupF]

theorem loadRegs (x : Reg) : Statement (.loadRegs x) := fun _ => by simp [encode, decode, decodeGroupF]

theorem unhandled (op : Word) : Statement (.unhandled op) := by
  intro h
  have hN : ∀ k : Nibble, opN op = k ↔ (opN op).toNat = k.toNat := fun k => BitVec.toNat_inj.symm
  have hNN : ∀ k : Byte, opNN op = k ↔ (opNN op).toNat = k.toNat := fun k => BitVec.toNat_inj.symm
  rcases unhandledWord_fields op h with ⟨hg, hn⟩ | ⟨hg, hn⟩ | ⟨hg, hn⟩ | ⟨hg, hn⟩ | ⟨hg, hn⟩
  · simp [encode, decode, hg, hN, hn]
  · simp only [List.mem_cons, List.not_mem_nil, or_false] at hn
    rcases hn with hn | hn | hn | hn | hn | hn | hn <;> simp [encode, decode, decodeGroup8, hg, hn]
  · simp [encode, decode, hg, hN, hn]
  · simp [encode, decode, decodeGroupE, hg, hNN, hn]
  · simp only [List.mem_cons, List.not_mem_nil, or_false, not_or] at hn
    simp [encode, decode, decodeGroupF, hg, hNN, hn]

end Sys2Proof.Laws.DecodeEncode
end

