-- ==== Sys2Proof/Laws/Storage.lean ====
section
/-! SUPPORT. Every operation over a storage space keeps its canonical form, `State.reset` has it, and what the lifecycle
operations leave in MEM and IMG. -/

namespace Sys2Proof.Machine

variable (s : State)

/-! ## The canonical form -/

theorem wf_memWrite (a : Nat) (b : Byte) (h : Memory.wf s.cfg.powerOnByte 4096 s.mem) :
    Memory.wf s.cfg.powerOnByte 4096 (s.memWrite a b).mem :=
  Memory.wf_write _ _ _ _ _ (Nat.mod_lt _ (by decide)) h

theorem wf_stackWrite (k : Nat) (b : Byte) (h : Memory.wf zeroByte 256 s.stack) :
    Memory.wf zeroByte 256 (s.stackWrite k b).stack :=
  Memory.wf_write _ _ _ _ _ (Nat.mod_lt _ (by decide)) h

theorem wf_push (a : Word) (h : Memory.wf zeroByte 256 s.stack) : Memory.wf zeroByte 256 (s.push a).stack :=
  wf_stackWrite _ _ _ (wf_stackWrite _ _ _ h)

theorem wf_storeBlock (n : Nat) (h : Memory.wf s.cfg.powerOnByte 4096 s.mem) :
    Memory.wf s.cfg.powerOnByte 4096 (storeBlock n s).mem := by
  induction n with
  | zero => exact h
  | succ n ih =>
    have hcfg : (storeBlock n s).cfg = s.cfg := by rw [storeBlock_frame]
    simpa only [storeBlock, State.memWrite_cfg, hcfg] using wf_memWrite (storeBlock n s) _ _ (by rw [hcfg]; exact ih)

theorem wf_setPixel (fb : Memory) (x y : Nat) (b : Byte) (h : Memory.wf zeroByte 2048 fb) :
    Memory.wf zeroByte 2048 (setPixel fb x y b) :=
  Memory.wf_write _ _ _ _ _ (pixelIndex_lt x y) h

theorem wf_blitPixel (x y : Nat) (acc : Memory × Bool) (h : Memory.wf zeroByte 2048 acc.1) :
    Memory.wf zeroByte 2048 (blitPixel x y acc).1 := by
  unfold blitPixel
  split
  · exact wf_setPixel acc.1 x y 0x00 h
  · exact wf_setPixel acc.1 x y 0xFF h

theorem wf_blitRow (b : Byte) (x0 y n : Nat) (acc : Memory × Bool) (h : Memory.wf zeroByte 2048 acc.1) :
    Memory.wf zeroByte 2048 (blitRow b x0 y n acc).1 := by
  induction n with
  | zero => exact h
  | succ n ih =>
    unfold blitRow
    split
    · exact wf_blitPixel _ _ _ ih
    · exact ih

theorem wf_blitRows (rows : Nat → Byte) (x0 y0 n : Nat) (acc : Memory × Bool) (h : Memory.wf zeroByte 2048 acc.1) :
    Memory.wf zeroByte 2048 (blitRows rows x0 y0 n acc).1 := by
  induction n with
  | zero => exact h
  | succ n ih => exact wf_blitRow _ _ _ _ _ ih

theorem wf_resetMem (c : Config) (img mem : Memory) (hi : Memory.wf zeroByte 3072 img)
    (hm : Memory.wf c.powerOnByte 4096 mem) : Memory.wf c.powerOnByte 4096 (resetMem img mem) := by
  constructor
  · unfold resetMem
    rw [List.pairwise_append, List.pairwise_append]
    refine ⟨⟨hm.1.filter _, ?_, ?_⟩, hm.1.filter _, ?_⟩
    · rw [List.pairwise_map]
      exact (hi.1.filter _).imp (fun h => Nat.add_lt_add_left h _)
    · intro a ha b hb
      obtain ⟨e, he, rfl⟩ := List.mem_map.1 hb
      have := (List.mem_filter.1 ha).2
      simp only [Bool.and_eq_true, decide_eq_true_eq] at this
      show a.1 < 0x200 + e.1
      omega
    · intro a ha b hb
      have hb := (List.mem_filter.1 hb).2
      simp only [decide_eq_true_eq] at hb
      rcases List.mem_append.1 ha with ha | ha
      · have := (List.mem_filter.1 ha).2
        simp only [Bool.and_eq_true, decide_eq_true_eq] at this
        omega
      · obtain ⟨e, he, rfl⟩ := List.mem_map.1 ha
        have := (List.mem_filter.1 he).2
        simp only [decide_eq_true_eq] at this
        show 0x200 + e.1 < b.1
        omega
  · intro a ha
    unfold resetMem at ha
    rcases List.mem_append.1 ha with ha | ha
    · rcases List.mem_append.1 ha with ha | ha
      · exact hm.2 a (List.mem_filter.1 ha).1
      · obtain ⟨e, he, rfl⟩ := List.mem_map.1 ha
        obtain ⟨he, hlt⟩ := List.mem_filter.1 he
        simp only [decide_eq_true_eq] at hlt
        refine ⟨show 0x200 + e.1 < 4096 by omega, ?_⟩
        rw [powerOnByte_of_ge c (0x200 + e.1) (by omega)]
        exact (hi.2 e he).2
    · exact hm.2 a (List.mem_filter.1 ha).1

theorem key_cellsFrom (j : Nat) (bytes : List Byte) :
    ∀ c ∈ cellsFrom j bytes, j ≤ c.1 ∧ c.1 < j + bytes.length ∧ c.2 ≠ 0 := by
  induction bytes generalizing j with
  | nil => exact fun c hc => absurd hc List.not_mem_nil
  | cons b bs ih =>
    intro c hc
    rw [List.length_cons]
    unfold cellsFrom at hc
    split at hc
    · have := ih (j + 1) c hc
      exact ⟨by omega, by omega, this.2.2⟩
    · next hb =>
      rcases List.mem_cons.1 hc with rfl | hc
      · exact ⟨Nat.le_refl j, show j < _ by omega, hb⟩
      · have := ih (j + 1) c hc
        exact ⟨by omega, by omega, this.2.2⟩

theorem pairwise_cellsFrom (j : Nat) (bytes : List Byte) : (cellsFrom j bytes).Pairwise (fun c e => c.1 < e.1) := by
  induction bytes generalizing j with
  | nil => exact List.Pairwise.nil
  | cons b bs ih =>
    unfold cellsFrom
    split
    · exact ih (j + 1)
    · exact List.pairwise_cons.2 ⟨fun c hc => (key_cellsFrom (j + 1) bs c hc).1, ih (j + 1)⟩

theorem wf_imageOf (bytes : List Byte) (h : bytes.length ≤ 3072) : Memory.wf zeroByte 3072 (imageOf bytes) :=
  ⟨pairwise_cellsFrom 0 bytes, fun c hc =>
    have := key_cellsFrom 0 bytes c hc
    ⟨by omega, this.2.2⟩⟩

/-- The four storage spaces of `State.reset` are canonical. -/
theorem wf_reset :
    Memory.wf State.reset.cfg.powerOnByte 4096 State.reset.mem ∧ Memory.wf zeroByte 256 State.reset.stack ∧
    Memory.wf zeroByte 2048 State.reset.fb ∧ Memory.wf zeroByte 3072 State.reset.img :=
  ⟨Memory.wf_nil _ _, Memory.wf_nil _ _, Memory.wf_nil _ _, Memory.wf_nil _ _⟩

/-! ## What the lifecycle operations leave in MEM and IMG -/

theorem read_cellsFrom (j : Nat) (bytes : List Byte) (k : Nat) :
    Memory.read zeroByte (cellsFrom j bytes) (j + k) = bytes.getD k 0 := by
  induction bytes generalizing j k with
  | nil => rfl
  | cons b bs ih =>
    have hsucc : ∀ k, Memory.read zeroByte (cellsFrom (j + 1) bs) (j + (k + 1)) = bs.getD k 0 := by
      intro k
      rw [show j + (k + 1) = j + 1 + k by omega]
      exact ih (j + 1) k
    have hzero : Memory.read zeroByte (cellsFrom (j + 1) bs) j = 0 :=
      Memory.read_unlisted _ _ _ (fun c hc => by have := (key_cellsFrom (j + 1) bs c hc).1; omega)
    unfold cellsFrom
    cases k with
    | zero =>
      split
      · next hb => simpa [hb] using hzero
      · simp
    | succ k =>
      split
      · simpa using hsucc k
      · simpa using hsucc k

/-- The image of a program reads as the program's bytes, zero-padded (70_reset_and_hazards.md R213). -/
theorem imageByte_imageOf (bytes : List Byte) (j : Nat) :
    Memory.read zeroByte (imageOf bytes) j = bytes.getD j 0 := by
  simpa [imageOf] using read_cellsFrom 0 bytes j

/-- MEM after a Reset, region by region (70_reset_and_hazards.md R211, R212). -/
theorem read_resetMem (d : Nat → Byte) (img mem : Memory) (a : Nat) :
    (a < 0x050 → Memory.read d (resetMem img mem) a = d a) ∧
    (0x050 ≤ a → a < 0x200 → Memory.read d (resetMem img mem) a = Memory.read d mem a) ∧
    (0x200 ≤ a → a < 0xE00 → Memory.read d (resetMem img mem) a = Memory.read (fun j => d (0x200 + j)) img (a - 0x200)) ∧
    (0xE00 ≤ a → Memory.read d (resetMem img mem) a = Memory.read d mem a) := by
  have low : ¬ (0x050 ≤ a ∧ a < 0x200) → ∀ c ∈ mem.filter (fun c => 0x050 ≤ c.1 && c.1 < 0x200), c.1 ≠ a := by
    intro h c hc
    have := (List.mem_filter.1 hc).2
    simp only [Bool.and_eq_true, decide_eq_true_eq] at this
    omega
  have mid : ¬ (0x200 ≤ a ∧ a < 0xE00) →
      ∀ c ∈ (img.filter (fun c => c.1 < 0xC00)).map (fun c => (0x200 + c.1, c.2)), c.1 ≠ a := by
    intro h c hc
    obtain ⟨e, he, rfl⟩ := List.mem_map.1 hc
    have := (List.mem_filter.1 he).2
    simp only [decide_eq_true_eq] at this
    show 0x200 + e.1 ≠ a
    omega
  have high : a < 0xE00 → ∀ c ∈ mem.filter (fun c => 0xE00 ≤ c.1), c.1 ≠ a := by
    intro h c hc
    have := (List.mem_filter.1 hc).2
    simp only [decide_eq_true_eq] at this
    omega
  have first : ∀ (m n : Memory), (∀ c ∈ n, c.1 ≠ a) → Memory.read d (m ++ n) a = Memory.read d m a := by
    intro m n hn
    induction m with
    | nil => exact Memory.read_unlisted d n a hn
    | cons c m ih => simp only [List.cons_append, Memory.read_cons, ih]
  have shifted : ∀ m : Memory, 0x200 ≤ a →
      Memory.read d (m.map (fun c => (0x200 + c.1, c.2))) a = Memory.read (fun j => d (0x200 + j)) m (a - 0x200) := by
    intro m h
    induction m with
    | nil => simp [show 0x200 + (a - 0x200) = a by omega]
    | cons c m ih =>
      simp only [List.map_cons, Memory.read_cons, ih]
      by_cases he : a = 0x200 + c.1
      · rw [if_pos he, if_pos (by omega)]
      · rw [if_neg he, if_neg (by omega)]
  refine ⟨fun h => ?_, fun h1 h2 => ?_, fun h1 h2 => ?_, fun h => ?_⟩
  · rw [resetMem, first _ _ (high (by omega)), first _ _ (mid (by omega))]
    exact Memory.read_unlisted _ _ _ (low (by omega))
  · rw [resetMem, first _ _ (high (by omega)), first _ _ (mid (by omega))]
    exact Memory.read_filter _ _ _ _ (fun c hc => by rw [hc]; simp [h1, h2])
  · rw [resetMem, first _ _ (high (by omega)), Memory.read_append _ _ _ _ (low (by omega)), shifted _ h1]
    exact Memory.read_filter _ _ _ _ (fun c hc => by rw [hc, decide_eq_true_eq]; omega)
  · rw [resetMem, Memory.read_append]
    · exact Memory.read_filter _ _ _ _ (fun c hc => by rw [hc]; simp [h])
    · intro c hc
      rcases List.mem_append.1 hc with hc | hc
      · exact low (by omega) c hc
      · exact mid (by omega) c hc

end Sys2Proof.Machine
end

