-- ==== Sys2Proof/Tests/Slice0.lean ====
section
/-! SUPPORT. The model's own tests. Expected values are those of 95_test_vectors.md (named in each comment) or are computed by
hand from the rule named there; `witness_<Name>` shows values that meet all hypotheses of `Obligations.<Name>`. -/

namespace Sys2Proof.Tests

open Sys2Proof Sys2Proof.Machine

/- One thread for this file: a kernel evaluation that waits for the ones before it holds a thread while it waits. -/
set_option Elab.async false

/-! ## Helpers -/

/-- `State.reset` changed by `setup`, with the word `op` where the next Step fetches. -/
def ready (op : Word) (setup : State → State) : State := (setup State.reset).withFetchWord 16 op.toNat

/-- The next state, if there is one. -/
def nextOf (r : Result) : Option State :=
  match r with
  | .next t => some t
  | .fault _ => none
  | .refused _ => none

/-- What `see` reads after one Step of the word `op`. -/
def one {α : Type} (op : Word) (setup : State → State) (see : State → α) : Option α :=
  (nextOf (step (ready op setup))).map see

/-- Bytes stored one after another from an address on. -/
def putBytes (s : State) (a : Nat) : List Byte → State
  | [] => s
  | b :: bs => putBytes (s.memWrite a b) (a + 1) bs

/-- `n` bytes read from an address on. -/
def bytesAt (s : State) (a n : Nat) : List Byte := (List.range n).map (fun k => s.memRead (a + k))

/-- The pixels that are not off, as linear indices in rising order. -/
def litPixels (s : State) : List Nat := s.fb.map (·.1)

/-! ## WellFormed: an ill-formed term for each check -/

/-- R79: 0x00E0 and 0x00EE are not words of `SYS addr`. -/
theorem test_wf_sys_refused :
    (Instr.sys 0x0E0#12).wellFormed = false ∧ (Instr.sys 0x0EE#12).wellFormed = false := by decide

/-- R78: a word that selects an instruction is not unhandled. -/
theorem test_wf_unhandled_refused :
    (Instr.unhandled 0x5AB0#16).wellFormed = false ∧ (Instr.unhandled 0x812E#16).wellFormed = false ∧
    (Instr.unhandled 0x9120#16).wellFormed = false ∧ (Instr.unhandled 0xE19E#16).wellFormed = false ∧
    (Instr.unhandled 0xF165#16).wellFormed = false ∧ (Instr.unhandled 0x0000#16).wellFormed = false := by decide

/-! ## Decode: a word written out from each row's bit pattern (30_encoding.md R75) -/

theorem test_decode_group0 :
    decode 0b0000000011100000#16 = .cls ∧ decode 0b0000000011101110#16 = .ret ∧
    decode 0b0000000111100000#16 = .sys 0x1E0#12 := by decide

theorem test_decode_address_format :
    decode 0b0001101010111100#16 = .jp 0xABC#12 ∧ decode 0b0010001100000001#16 = .call 0x301#12 ∧
    decode 0b1010001000001100#16 = .ldI 0x20C#12 ∧ decode 0b1011111111111110#16 = .jpV0 0xFFE#12 := by decide

theorem test_decode_register_immediate_format :
    decode 0b0011101000000010#16 = .seByte 10 0x02#8 ∧ decode 0b0100000110000001#16 = .sneByte 1 0x81#8 ∧
    decode 0b0110111110101011#16 = .ldByte 15 0xAB#8 ∧ decode 0b0111001100000101#16 = .addByte 3 0x05#8 ∧
    decode 0b1100001111110000#16 = .rnd 3 0xF0#8 := by decide

theorem test_decode_group8 :
    decode 0b1000000100100000#16 = .ldReg 1 2 ∧ decode 0b1000000100100001#16 = .orReg 1 2 ∧
    decode 0b1000000100100010#16 = .andReg 1 2 ∧ decode 0b1000000100100011#16 = .xorReg 1 2 ∧
    decode 0b1000000100100100#16 = .addReg 1 2 ∧ decode 0b1000000100100101#16 = .subReg 1 2 ∧
    decode 0b1000000100100110#16 = .shr 1 2 ∧ decode 0b1000000100100111#16 = .subnReg 1 2 ∧
    decode 0b1000000100101110#16 = .shl 1 2 := by decide

theorem test_decode_register_pair_and_sprite :
    decode 0b0101110100110000#16 = .seReg 13 3 ∧ decode 0b1001110100110000#16 = .sneReg 13 3 ∧
    decode 0b1101000100101010#16 = .drw 1 2 10#4 := by decide

theorem test_decode_groupE :
    decode 0b1110001110011110#16 = .skp 3 ∧ decode 0b1110001110100001#16 = .sknp 3 := by decide

theorem test_decode_groupF :
    decode 0b1111001000000111#16 = .ldVxDT 2 ∧ decode 0b1111001000001010#16 = .ldVxK 2 ∧
    decode 0b1111001000010101#16 = .ldDTVx 2 ∧ decode 0b1111001000011000#16 = .ldSTVx 2 ∧
    decode 0b1111001000011110#16 = .addIVx 2 ∧ decode 0b1111001000101001#16 = .ldFVx 2 ∧
    decode 0b1111001000110011#16 = .ldBVx 2 ∧ decode 0b1111001001010101#16 = .storeRegs 2 ∧
    decode 0b1111001001100101#16 = .loadRegs 2 := by decide

/-- T-FET-1 to T-FET-6. -/
theorem test_decode_unhandled :
    decode 0x5AB1#16 = .unhandled 0x5AB1#16 ∧ decode 0x812F#16 = .unhandled 0x812F#16 ∧
    decode 0x9121#16 = .unhandled 0x9121#16 ∧ decode 0xE09F#16 = .unhandled 0xE09F#16 ∧
    decode 0xF075#16 = .unhandled 0xF075#16 := by decide

/-- R70: exactly two bytes are taken, and one byte is no instruction. -/
theorem test_decodeBytes :
    (match decodeBytes [0x6A, 0x02, 0x99] with
      | .ok (i, rest) => i = .ldByte 10 0x02#8 ∧ rest = [0x99]
      | .error _ => False) ∧
    (match decodeBytes [0x6A] with
      | .ok _ => False
      | .error e => e = .truncated) := ⟨⟨by decide, by decide⟩, rfl⟩

/-- The longest mask wins (R77): 00E0 is CLS although the SYS row selects it too. -/
theorem test_table_longest_mask :
    tableMnemonics 0x00E0#16 = ["CLS"] ∧ tableMnemonics 0x01E0#16 = ["SYS_addr"] ∧
    tableMnemonics 0x812F#16 = ["UNHANDLED"] := by decide +kernel

/-! ## Control transfer -/

/-- S9. -/
theorem test_cls : one 0x00E0#16 (fun s => (s.setFB [(202, 0xFF), (203, 0xFF)]).setV 15 0x01)
    (fun t => (litPixels t, t.getV 15, t.pc)) = some ([], 0x01, 0x0202) := by decide +kernel

/-- T-CTL-5 and T-CTL-6: the stack wraps downwards, and an odd target is legal. -/
theorem test_ret : one 0x00EE#16 id (fun t => (t.sp, t.pc)) = some (0xFE, 0x0000) ∧
    one 0x00EE#16 (fun s => ((s.stackWrite 0 0x02).stackWrite 1 0x07).setSP 0x02) (fun t => (t.sp, t.pc, t.stackRead 0))
      = some (0x00, 0x0207, 0x02) := by decide +kernel

/-- T-CTL-10, T-CTL-11. -/
theorem test_sys : one 0x0123#16 id (fun t => t.pc) = some 0x0202 ∧
    one 0x0123#16 (fun s => { s with cfg := { s.cfg with legacy := true } }) (fun t => (t.pc, t.sp)) = some (0x0123, 0x00) := by
  decide +kernel

/-- T-CTL-1. -/
theorem test_jp : one 0x1ABC#16 id (fun t => t.pc) = some 0x0ABC := by decide +kernel

/-- T-CTL-3 and T-CTL-13: 16 bits are pushed, big-endian, and `SP` wraps. -/
theorem test_call :
    one 0x2ABC#16 (fun s => s.setPC 0x0FFE) (fun t => (t.stackRead 0, t.stackRead 1, t.sp, t.pc)) = some (0x10, 0x00, 0x02, 0x0ABC) ∧
    one 0x2301#16 (fun s => s.setSP 0xFE) (fun t => (t.stackRead 254, t.stackRead 255, t.sp, t.pc))
      = some (0x02, 0x02, 0x00, 0x0301) := by decide +kernel

/-- T-CTL-7 and T-CTL-9: 12-bit wrap, and the offset register is V0. -/
theorem test_jpV0 : one 0xBFFF#16 (fun s => s.setV 0 0x02) (fun t => t.pc) = some 0x0001 ∧
    one 0xB300#16 (fun s => (s.setV 0 0xFF).setV 3 0x77) (fun t => t.pc) = some 0x03FF := by decide +kernel

/-- T-FET-2 and T-FET-7 (the fetch wraps at the top of MEM; `PC` keeps its 13th bit). -/
theorem test_unhandled_and_fetch :
    one 0x8128#16 (fun s => (s.setV 1 0x11).setV 2 0x22) (fun t => (t.getV 1, t.getV 2, t.pc, t.cyc)) = some (0x11, 0x22, 0x0202, 10) ∧
    one 0x6A02#16 (fun s => s.setPC 0x0FFF) (fun t => (t.getV 10, t.pc)) = some (0x02, 0x1001) := by decide +kernel

/-! ## Skips -/

/-- T-SKP-1, T-SKP-2, T-SKP-12. -/
theorem test_seByte : one 0x3A02#16 (fun s => s.setV 10 0x02) (fun t => t.pc) = some 0x0204 ∧
    one 0x3A02#16 (fun s => s.setV 10 0x03) (fun t => t.pc) = some 0x0202 ∧
    one 0x3000#16 (fun s => s.setPC 0xFFFC) (fun t => t.pc) = some 0x0000 := by decide +kernel

/-- T-SKP-3, T-SKP-4. -/
theorem test_sneByte : one 0x4A02#16 (fun s => s.setV 10 0x02) (fun t => t.pc) = some 0x0202 ∧
    one 0x4A02#16 (fun s => s.setV 10 0x03) (fun t => t.pc) = some 0x0204 := by decide +kernel

/-- T-SKP-5, T-SKP-6. -/
theorem test_seReg : one 0x5120#16 (fun s => (s.setV 1 0x07).setV 2 0x07) (fun t => t.pc) = some 0x0204 ∧
    one 0x5120#16 (fun s => (s.setV 1 0x07).setV 2 0x08) (fun t => t.pc) = some 0x0202 := by decide +kernel

/-- T-SKP-7, T-SKP-8. -/
theorem test_sneReg : one 0x9120#16 (fun s => (s.setV 1 0x07).setV 2 0x07) (fun t => t.pc) = some 0x0202 ∧
    one 0x9120#16 (fun s => (s.setV 1 0x07).setV 2 0x08) (fun t => t.pc) = some 0x0204 := by decide +kernel

/-- T-KEY-1, T-KEY-3. -/
theorem test_skp : one 0xE39E#16 (fun s => (s.setV 3 0x1A).setKeys 0x0400) (fun t => t.pc) = some 0x0204 ∧
    one 0xE39E#16 (fun s => s.setV 3 0x07) (fun t => t.pc) = some 0x0202 := by decide +kernel

/-- T-KEY-2, T-KEY-4. -/
theorem test_sknp : one 0xE3A1#16 (fun s => (s.setV 3 0x1A).setKeys 0x0400) (fun t => t.pc) = some 0x0202 ∧
    one 0xE3A1#16 (fun s => s.setV 3 0x07) (fun t => t.pc) = some 0x0204 := by decide +kernel

/-! ## Registers -/

/-- T-ALU-9. -/
theorem test_ldByte : one 0x6FAB#16 id (fun t => (t.getV 15, t.pc)) = some (0xAB, 0x0202) := by decide +kernel

/-- T-ALU-1. -/
theorem test_addByte : one 0x7305#16 (fun s => (s.setV 3 0xFE).setV 15 0x55) (fun t => (t.getV 3, t.getV 15)) = some (0x03, 0x55) := by
  decide +kernel

/-- T-ALU-3. -/
theorem test_ldReg : one 0x8120#16 (fun s => s.setV 2 0x3C) (fun t => (t.getV 1, t.getV 2)) = some (0x3C, 0x3C) := by decide +kernel

/-- T-ALU-4. -/
theorem test_orReg : one 0x8121#16 (fun s => ((s.setV 1 0xF0).setV 2 0x0F).setV 15 0x55) (fun t => (t.getV 1, t.getV 15))
    = some (0xFF, 0x55) := by decide +kernel

/-- T-ALU-5. -/
theorem test_andReg : one 0x8122#16 (fun s => ((s.setV 1 0xF3).setV 2 0x3C).setV 15 0x55) (fun t => (t.getV 1, t.getV 15))
    = some (0x30, 0x55) := by decide +kernel

/-- T-ALU-6. -/
theorem test_xorReg : one 0x8123#16 (fun s => ((s.setV 1 0xFF).setV 2 0x0F).setV 15 0x55) (fun t => (t.getV 1, t.getV 15))
    = some (0xF0, 0x55) := by decide +kernel

/-- S3, T-VF-1. -/
theorem test_addReg : one 0x8124#16 (fun s => (s.setV 1 0xFF).setV 2 0x01) (fun t => (t.getV 1, t.getV 15)) = some (0x00, 0x01) ∧
    one 0x8F14#16 (fun s => (s.setV 15 0xF0).setV 1 0x20) (fun t => t.getV 15) = some 0x01 := by decide +kernel

/-- T-VF-3, T-VF-9. -/
theorem test_subReg : one 0x8F15#16 (fun s => (s.setV 15 0x10).setV 1 0x20) (fun t => t.getV 15) = some 0xF0 ∧
    one 0x81F5#16 (fun s => (s.setV 1 0x05).setV 15 0x03) (fun t => (t.getV 1, t.getV 15)) = some (0x02, 0x01) := by decide +kernel

/-- S4, T-VF-5. -/
theorem test_shr : one 0x8126#16 (fun s => (s.setV 1 0x05).setV 2 0xF0) (fun t => (t.getV 1, t.getV 2, t.getV 15)) = some (0x02, 0xF0, 0x01) ∧
    one 0x8F06#16 (fun s => s.setV 15 0x05) (fun t => t.getV 15) = some 0x02 := by decide +kernel

/-- S3, T-VF-10. -/
theorem test_subnReg : one 0x8127#16 (fun s => (s.setV 1 0x10).setV 2 0x20) (fun t => (t.getV 1, t.getV 15)) = some (0x10, 0x01) ∧
    one 0x81F7#16 (fun s => (s.setV 1 0x05).setV 15 0x03) (fun t => (t.getV 1, t.getV 15)) = some (0xFE, 0x00) := by decide +kernel

/-- S4, T-VF-7. -/
theorem test_shl : one 0x810E#16 (fun s => s.setV 1 0x81) (fun t => (t.getV 1, t.getV 15)) = some (0x02, 0x01) ∧
    one 0x8F0E#16 (fun s => s.setV 15 0x81) (fun t => t.getV 15) = some 0x02 := by decide +kernel

/-- T-RND-1. -/
theorem test_rnd : (nextOf ((ready 0xC30F#16 id).stepWith 0xA7)).map (fun t => (t.getV 3, t.rndIn, t.rndCount)) = some (0x07, none, 1) := by
  decide +kernel

/-! ## Index register and memory -/

/-- T-IDX-1. -/
theorem test_ldI : one 0xA300#16 id (fun t => t.i) = some 0x0300 := by decide +kernel

/-- T-IDX-2, T-IDX-3. -/
theorem test_addIVx : one 0xF21E#16 (fun s => (s.setI 0xFFFF).setV 2 0x02) (fun t => (t.i, t.getV 15)) = some (0x0001, 0x00) ∧
    one 0xF21E#16 (fun s => (s.setI 0x0FFF).setV 2 0x01) (fun t => t.i) = some 0x1000 := by decide +kernel

/-- T-IDX-4. -/
theorem test_ldFVx : one 0xF029#16 (fun s => s.setV 0 0x0F) (fun t => t.i) = some 0x004B ∧
    one 0xF029#16 (fun s => s.setV 0 0xFF) (fun t => t.i) = some 0x04FB := by decide +kernel

/-- T-IDX-5, T-IDX-6. -/
theorem test_ldBVx : one 0xF033#16 (fun s => (s.setI 0x0300).setV 0 0xFE) (fun t => (bytesAt t 0x300 3, t.i)) = some ([2, 5, 4], 0x0300) ∧
    one 0xF033#16 (fun s => (s.setI 0x0FFF).setV 0 0xEA) (fun t => (t.memRead 0xFFF, bytesAt t 0 2)) = some (2, [3, 4]) := by
  decide +kernel

/-- T-IDX-7. -/
theorem test_storeRegs :
    one 0xF355#16 (fun s => ((((s.setI 0x0FFE).setV 0 0xAA).setV 1 0xBB).setV 2 0xCC).setV 3 0xDD)
      (fun t => (bytesAt t 0xFFE 2, bytesAt t 0 3, t.i)) = some ([0xAA, 0xBB], [0xCC, 0xDD, 0x90], 0x0FFE) := by decide +kernel

/-- T-IDX-8, T-IDX-9. -/
theorem test_loadRegs :
    one 0xF265#16 (fun s => (s.setI 0x0FFF).memWrite 0xFFF 0x11) (fun t => (t.getV 0, t.getV 1, t.getV 2, t.getV 3, t.i))
      = some (0x11, 0xF0, 0x90, 0x00, 0x0FFF) ∧
    one 0xF065#16 (fun s => (putBytes (s.setI 0x0300) 0x300 [0x77, 0x88]).setV 1 0x33) (fun t => (t.getV 0, t.getV 1))
      = some (0x77, 0x33) := by decide +kernel

/-! ## Display -/

/-- T-DRW-1, T-DRW-3. -/
theorem test_drw :
    one 0xD011#16 (fun s => (((s.setI 0x0300).memWrite 0x300 0xC0).setV 0 0xFF).setV 1 0xFF) (fun t => (litPixels t, t.getV 15))
      = some ([1984, 2047], 0x00) ∧
    one 0xD011#16 (fun s => ((((s.setFB [(202, 0xFF)]).setI 0x0300).memWrite 0x300 0xC0).setV 0 0x0A).setV 1 0x03)
      (fun t => (litPixels t, t.getV 15)) = some ([203], 0x01) := by decide +kernel

/-- T-DRW-2, T-DRW-5: no row clears VF and touches nothing; the old VF is the coordinate. -/
theorem test_drw_reads_before_flag :
    one 0xD010#16 (fun s => ((s.setI 0x0300).memWrite 0x300 0xFF).setV 15 0x07) (fun t => (litPixels t, t.getV 15)) = some ([], 0x00) ∧
    one 0xDF01#16 (fun s => (((s.setI 0x0300).memWrite 0x300 0x80).setV 15 0x0A).setV 0 0x03) (fun t => (litPixels t, t.getV 15))
      = some ([202], 0x00) := by decide +kernel

/-! ## Keypad and timers -/

/-- S11, T-TMR-6. -/
theorem test_ldVxK : one 0xF30A#16 (fun s => { s with cyc := 90, dt := 0x02, st := 0x01 })
    (fun t => (t.awaitingKey, t.wreg, t.dt, t.st, t.cyc, t.pc)) = some (true, 3, 0x01, 0x00, 0, 0x0202) := by decide +kernel

/-- T-TMR-3. -/
theorem test_ldVxDT : one 0xF107#16 (fun s => { s with cyc := 90, dt := 0x05 }) (fun t => (t.getV 1, t.dt, t.cyc)) = some (0x05, 0x04, 0) := by
  decide +kernel

/-- T-TMR-2, T-TMR-4b. -/
theorem test_ldDTVx : one 0xF015#16 (fun s => ({ s with cyc := 90 } : State).setV 0 0x05) (fun t => (t.dt, t.cyc)) = some (0x04, 0) ∧
    one 0xF015#16 (fun s => ({ s with cyc := 10 } : State).setV 0 0x03) (fun t => (t.dt, t.cyc)) = some (0x03, 20) := by decide +kernel

/-- T-TMR-4. -/
theorem test_ldSTVx : one 0xF218#16 (fun s => ({ s with cyc := 90 } : State).setV 2 0x01) (fun t => (t.st, t.cyc)) = some (0x00, 0) := by
  decide +kernel

/-! ## Transactions -/

/-- S8: `LoadROM([6A, 02])`, `Run(1)`. -/
theorem test_loadROM_run :
    (nextOf ((State.reset.loadROM [0x6A, 0x02]).1.run [0x00])).map (fun t => (t.getV 10, t.pc, t.cyc)) = some (0x02, 0x0202, 10) := by
  decide +kernel

/-- T-LD-1, T-LD-2: 3072 bytes load, 3073 fail and change nothing. -/
theorem test_loadROM_bounds :
    (fun r : State × Bool => (r.2, r.1.memRead 0x200, r.1.memRead 0xDFF, r.1.memRead 0xE00))
      (State.reset.loadROM (List.replicate 3072 0xAB)) = (true, 0xAB, 0xAB, 0x00) ∧
    (fun r : State × Bool => (r.2, r.1.memRead 0x200, r.1.imageByte 0))
      (State.reset.loadROM (List.replicate 3073 0xCD)) = (false, 0x00, 0x00) := by decide +kernel

/-- T-RST-1. -/
theorem test_reset :
    (fun t : State => (t.memRead 0x100, t.memRead 0xE10, t.memRead 0x003, t.memRead 0x300, t.keys, t.cyc))
      ((((((State.reset.memWrite 0x100 0x77).memWrite 0xE10 0x66).memWrite 0x003 0x00).memWrite 0x300 0x09).setKeys 0x0010).setCyc
        50).resetCore = (0x77, 0x66, 0x90, 0x00, 0x0010, 0) := by decide +kernel

/-- T-KEY-5, T-KEY-6: `index mod 16` is delivered to the pending register, and nothing is delivered when none is awaited. -/
theorem test_setAwaitedKey :
    (fun t : State => (t.getV 15, t.awaitingKey)) ((State.reset.enterAwait 15).setAwaitedKey 0x25) = (0x05, false) ∧
    (State.reset.setV 0 0x09).setAwaitedKey 3 = State.reset.setV 0 0x09 := by decide +kernel

/-- R175, R177: a host tick delivers the lowest pressed key, here 3 of 3 and 7, and then runs, here `SKP V3`. -/
theorem test_hostTick :
    (nextOf (((ready 0xE39E#16 id).enterAwait 3).hostTick 0x0088 [0x00])).map (fun t => (t.getV 3, t.pc)) = some (0x03, 0x0204) := by
  decide +kernel

/-- R183: a keypad write is served before the Step of the same cycle. -/
theorem test_serve :
    (nextOf ((ready 0xE09E#16 id).serve ⟨false, none, some 0x0001, none, some 0x00⟩)).map (fun t => t.pc) = some 0x0204 := by
  decide +kernel

/-! ## State.reset -/

/-- 10_state.md R46 with FONT (log 1): the memory of `State.reset` reads as FONT and zero, and lists nothing. -/
theorem test_reset_memory :
    State.reset.mem = [] ∧ bytesAt State.reset 0 5 = [0xF0, 0x90, 0x90, 0x90, 0xF0] ∧ State.reset.memRead 0x050 = 0 := by decide

/-- The word the host places is the word the next Step fetches. -/
theorem test_withFetchWord :
    (State.reset.withFetchWord 16 0xD12F).fetchWord = 0xD12F#16 ∧ decodeTableWord 16 0xD12F = some (.drw 1 2 15#4) := by decide +kernel

/-! ## Witnesses: states and operands that meet every hypothesis of a statement -/

/-- O2, at the edges of the two checks of `wellFormed`. -/
theorem witness_DecodingUndoesEncoding :
    (Instr.sys 0x0DF#12).wellFormed = true ∧ (Instr.sys 0x0E1#12).wellFormed = true ∧ (Instr.drw 15 0 0#4).wellFormed = true ∧
    (Instr.unhandled 0x5AB1#16).wellFormed = true ∧ (Instr.unhandled 0x8008#16).wellFormed = true ∧
    (Instr.unhandled 0x812F#16).wellFormed = true ∧ (Instr.unhandled 0xE09F#16).wellFormed = true ∧
    (Instr.unhandled 0xFFFF#16).wellFormed = true := by decide

/-- O5, one word of each clause. -/
theorem witness_UnhandledWordsAreExactlyThoseListed :
    decode 0x5001#16 = .unhandled 0x5001#16 ∧ decode 0x8008#16 = .unhandled 0x8008#16 ∧ decode 0x900F#16 = .unhandled 0x900F#16 ∧
    decode 0xE09D#16 = .unhandled 0xE09D#16 ∧ decode 0xF066#16 = .unhandled 0xF066#16 := by decide

/-- O6, with an instruction that straddles the top of MEM. -/
theorem witness_StepRunsTheDecodedInstruction :
    let s := ready 0x6A02#16 (fun s => s.setPC 0x0FFF)
    s.running = true ∧ s.awaitingKey = false ∧ (Instr.ldByte 10 0x02#8).wellFormed = true ∧
      decodeBytes [s.memRead s.pc.toNat, s.memRead (s.pc.toNat + 1)] = .ok (.ldByte 10 0x02#8, []) :=
  ⟨rfl, rfl, rfl, congrArg (fun i => Except.ok (i, [])) (by decide +kernel)⟩

/-- O7, both ways of closing the gate. -/
theorem witness_ClosedGateStepChangesNothing :
    (zeroState State.reset.cfg).running = false ∧ (State.reset.enterAwait 3).awaitingKey = true := by decide

/-- O9, at both sides of the tick. -/
theorem witness_CycleCountAndTickFollowEveryExecutedStep :
    State.reset.running = true ∧ State.reset.awaitingKey = false ∧
    (State.reset.setCyc 80).cyc % 10 = 0 ∧ (State.reset.setCyc 80).cyc < 100 ∧ (State.reset.setCyc 80).cyc ≠ 90 ∧
    (State.reset.setCyc 90).cyc % 10 = 0 ∧ (State.reset.setCyc 90).cyc < 100 ∧ (State.reset.setCyc 90).cyc = 90 := by decide

/-- O10: S7's state after Reset, with ten random bytes. -/
theorem witness_TenNoOpStepsTickEachTimerOnce :
    State.reset.running = true ∧ State.reset.awaitingKey = false ∧ State.reset.cyc = 0 ∧ State.reset.cfg.legacy = false ∧
    (∀ k < 10, ∃ i, decode (wordOfBytes (State.reset.memRead (State.reset.pc.toNat + 2 * k))
        (State.reset.memRead (State.reset.pc.toNat + 2 * k + 1))) = i ∧
      ((∃ nnn, i = .sys nnn) ∨ ∃ op, i = .unhandled op)) ∧
    (List.replicate 10 (0x00 : Byte)).length = 10 := by
  refine ⟨rfl, rfl, rfl, rfl, fun k hk => ⟨.sys 0, ?_, .inl ⟨0, rfl⟩⟩, rfl⟩
  revert k
  decide +kernel

/-- O11, one state for each clause. -/
theorem witness_TickComesAfterTheInstructionsWrites :
    (State.reset.setCyc 90).running = true ∧ (State.reset.setCyc 90).awaitingKey = false ∧ (State.reset.setCyc 90).cyc = 90 ∧
    decode (ready 0xF015#16 (fun s => s.setCyc 90)).fetchWord = .ldDTVx 0 ∧
    decode (ready 0xFF18#16 (fun s => s.setCyc 90)).fetchWord = .ldSTVx 15 ∧
    decode (ready 0xF107#16 (fun s => s.setCyc 90)).fetchWord = .ldVxDT 1 := by decide +kernel

/-- O12: two `PC` that differ in bits 15:12 only. -/
theorem witness_FetchIgnoresTheHighBitsOfPC :
    (State.reset.setPC 0xFFFF).mem = (State.reset.setPC 0x0FFF).mem ∧ (State.reset.setPC 0xFFFF).cfg = (State.reset.setPC 0x0FFF).cfg ∧
    (State.reset.setPC 0xFFFF).pc.toNat % 4096 = (State.reset.setPC 0x0FFF).pc.toNat % 4096 := by decide

/-- O13: program P5; the last of sixteen registers as the low byte, across the top of MEM; a digit as the high byte; stores
that miss the next word. -/
theorem witness_StoredBytesAreFetchedAtOnce :
    (let s := ready 0xF155#16 (fun s => (s.setPC 0x0206).setI 0x0208)
     s.running = true ∧ s.awaitingKey = false ∧ decode s.fetchWord = .storeRegs 1 ∧
      (s.i.toNat + 0) % 4096 = (s.pc.toNat + 2 + 0) % 4096 ∧ (s.i.toNat + 1) % 4096 = (s.pc.toNat + 2 + 1) % 4096) ∧
    (let s := ready 0xFF55#16 (fun s => (s.setPC 0x0FFD).setI 0x0FF1)
     s.running = true ∧ s.awaitingKey = false ∧ decode s.fetchWord = .storeRegs 15 ∧ (15 : Reg) ≤ 15 ∧
      (s.i.toNat + 15) % 4096 = (s.pc.toNat + 2 + 1) % 4096) ∧
    (let s := ready 0xF055#16 (fun s => s.setI 0x0300)
     s.running = true ∧ s.awaitingKey = false ∧ decode s.fetchWord = .storeRegs 0 ∧
      ∀ k : Reg, k ≤ 0 → (s.i.toNat + k.val) % 4096 ≠ (s.pc.toNat + 2 + 1) % 4096) ∧
    (let s := ready 0xFF33#16 (fun s => (s.setPC 0xFFFE).setI 0x0FFE)
     s.running = true ∧ s.awaitingKey = false ∧ decode s.fetchWord = .ldBVx 15 ∧
      (s.i.toNat + 2) % 4096 = (s.pc.toNat + 2 + 0) % 4096) ∧
    (let s := ready 0xF033#16 (fun s => s.setI 0x0300)
     s.running = true ∧ s.awaitingKey = false ∧ decode s.fetchWord = .ldBVx 0 ∧
      ∀ k < 3, (s.i.toNat + k) % 4096 ≠ (s.pc.toNat + 2 + 0) % 4096) := by decide +kernel

/-- O14: a closed gate. -/
theorem witness_RunIsItsStepsInOrder : (State.reset.enterAwait 0).gateOpen = false := by decide

/-- O15. -/
theorem witness_AwaitingCoreIdlesUntilAKeyIsDelivered :
    (State.reset.enterAwait 15).running = true ∧ (State.reset.enterAwait 15).awaitingKey = true := by decide

/-- O16: T-CTL-2, and the last even address of MEM. -/
theorem witness_SelfJumpChangesOnlyTheCounters :
    (ready 0x1200#16 id).atSelfJump ∧ (ready 0x1FFE#16 (fun s => s.setPC 0x0FFE)).atSelfJump :=
  ⟨⟨by decide, 0x200#12, by decide +kernel, by decide⟩, ⟨by decide, 0xFFE#12, by decide +kernel, by decide⟩⟩

/-- O17, each transition that is listed, a failed LoadROM among them. -/
theorem witness_RunModeChangesOnlyAsListed :
    ((ready 0x6A02#16 id).mode = .run ∧ ∃ t, (ready 0x6A02#16 id).transact (.step 0) = .next t) ∧
    ((ready 0xF30A#16 id).mode = .run ∧ ∃ t, (ready 0xF30A#16 id).transact (.step 0) = .next t) ∧
    ((State.reset.enterAwait 3).mode = .await ∧
      (State.reset.enterAwait 3).transact (.step 0) = .next (State.reset.enterAwait 3)) ∧
    (∃ t, State.reset.transact (.setKeys 0xFFFF) = .next t) ∧
    (∃ t, State.reset.transact (.readFB 63 31) = .next t) ∧
    (∃ t, State.reset.transact (.loadROM []) = .next t) ∧
    (∃ bytes : List Byte, ¬ bytes.length ≤ 3072 ∧
      ∃ t, (State.reset.enterAwait 3).transact (.loadROM bytes) = .next t) ∧
    (∃ t, State.reset.transact .reset = .next t) ∧
    ((State.reset.enterAwait 3).mode = .await ∧ ∃ t, (State.reset.enterAwait 3).transact (.setAwaitedKey 5) = .next t) ∧
    (∃ t, State.reset.transact (.powerOn ⟨true, customaryFont⟩) = .next t) ∧
    ((zeroState State.reset.cfg).transact .readKeys = .next (zeroState State.reset.cfg) ∧
      (zeroState State.reset.cfg).mode = .stopped) :=
  ⟨⟨by decide, _, rfl⟩, ⟨by decide, _, rfl⟩, ⟨by decide, rfl⟩, ⟨_, rfl⟩, ⟨_, rfl⟩, ⟨_, rfl⟩,
    ⟨List.replicate 3073 0xCD, by rw [List.length_replicate]; omega, _, rfl⟩, ⟨_, rfl⟩,
    ⟨by decide, _, rfl⟩, ⟨_, rfl⟩, rfl, by decide⟩

/-- O17, its last clause: a change of the mode by each listed cause. -/
theorem witness_RunModeChanges :
    (∃ t, (ready 0xF30A#16 id).transact (.step 0) = .next t ∧ t.mode ≠ (ready 0xF30A#16 id).mode) ∧
    (∃ t, (ready 0xF30A#16 id).transact (.run [0, 0]) = .next t ∧ t.mode ≠ (ready 0xF30A#16 id).mode) ∧
    (∃ t, (State.reset.enterAwait 3).transact (.setAwaitedKey 5) = .next t ∧ t.mode ≠ (State.reset.enterAwait 3).mode) ∧
    (∃ t, (State.reset.enterAwait 3).transact .reset = .next t ∧ t.mode ≠ (State.reset.enterAwait 3).mode) ∧
    (∃ t, (State.reset.enterAwait 3).transact (.loadROM []) = .next t ∧ t.mode ≠ (State.reset.enterAwait 3).mode) ∧
    (∃ t, (State.reset.enterAwait 3).transact (.powerOn State.reset.cfg) = .next t ∧
      t.mode ≠ (State.reset.enterAwait 3).mode) :=
  ⟨⟨_, rfl, by decide +kernel⟩, ⟨_, rfl, by decide +kernel⟩, ⟨_, rfl, by decide⟩, ⟨_, rfl, by decide⟩, ⟨_, rfl, by decide⟩,
    ⟨_, rfl, by decide⟩⟩

/-- A state with bytes in STACK and FB that meets the invariant, the hypothesis of O19 and O20. -/
def inUse : State := (State.reset.setFB [(2047, 0xFF)]).push 0x0200

theorem witness_invariant : inUse.Inv where
  spEven := by decide
  cycInStep := by decide
  pixelByte := by
    intro x y
    show Memory.read zeroByte [(2047, 0xFF)] (pixelIndex x y) = 0x00 ∨ Memory.read zeroByte [(2047, 0xFF)] (pixelIndex x y) = 0xFF
    rw [Memory.read_cons]
    split
    · exact .inr rfl
    · exact .inl rfl
  isRunning := rfl
  memWf := wf_reset.1
  stackWf := wf_push _ _ wf_reset.2.1
  fbWf := by decide
  imgWf := wf_reset.2.2.2

/-- O19. -/
theorem witness_EveryStepKeepsTheInvariant : inUse.Inv ∧ ∃ t, step inUse = .next t :=
  ⟨witness_invariant, _, rfl⟩

/-- O20. -/
theorem witness_EveryTransactionKeepsTheInvariant :
    inUse.Inv ∧ ∃ t, inUse.transact (.loadROM [0x6A, 0x02]) = .next t := ⟨witness_invariant, _, rfl⟩

/-- O21: the state after a power-on and one Step, and a Reset of it. -/
theorem witness_ReachableStatesMeetTheSpecsInvariants :
    ∃ s t : State, s.Reachable ∧ s.transact .reset = .next t :=
  ⟨_, _, .transact (State.powerOn ⟨true, customaryFont⟩) _ (.step 0) (.powerOn _) rfl, rfl⟩

/-- O23, both values of the option. -/
theorem witness_MachineCallJumpsOnlyWithTheOption :
    (State.powerOn ⟨true, customaryFont⟩).cfg.legacy = true ∧ State.reset.cfg.legacy = false := by decide

/-- O26, from the last slot: the called routine has changed `PC` only. -/
theorem witness_CallThenReturnRestoresPCAndSP :
    ∃ t u : State, exec (.call 0x300#12) (State.reset.setSP 0xFE) = .next t ∧ u.sp = t.sp ∧ (∀ k, u.stackRead k = t.stackRead k) ∧
      u.pc ≠ t.pc :=
  ⟨_, (((State.reset.setSP 0xFE).push 0x0200).setPC 0x0302), rfl, rfl, fun _ => rfl, by decide⟩

/-- O27: 128 words that differ, from an odd `SP`, and a key of each range. -/
theorem witness_DeepCallsWrapOntoTheFirstSlot :
    ((List.range 128).map (BitVec.ofNat 16)).length = 128 ∧
    (∃ u, ((List.range 128).map (BitVec.ofNat 16)).foldl State.push (State.reset.setSP 0xFF) = u) ∧
    (127 : Nat) < 128 ∧ 0x101 % 256 ≠ (State.reset.setSP 0xFF).sp.toNat ∧
    0x101 % 256 ≠ ((State.reset.setSP 0xFF).sp.toNat + 1) % 256 := ⟨by simp, ⟨_, rfl⟩, by decide, by decide, by decide⟩

/-- O28, at both sides of the tick. -/
theorem witness_UnhandledWordIsANoOp :
    (let s := ready 0xFFFF#16 (fun s => (s.setPC 0xFFFF).setCyc 90)
     s.running = true ∧ s.awaitingKey = false ∧ decode s.fetchWord = .unhandled 0xFFFF#16 ∧ s.cyc + 10 = 100) ∧
    (let s := ready 0x5AB1#16 (fun s => s.setCyc 80)
     s.running = true ∧ s.awaitingKey = false ∧ decode s.fetchWord = .unhandled 0x5AB1#16 ∧ s.cyc + 10 < 100) := by
  decide +kernel

/-- O31, each of the six skips, with a condition that holds and one that does not. -/
theorem witness_SkipStepLandsAtPlusFourOrPlusTwo :
    (ready 0x3F00#16 id).running = true ∧ (ready 0x3F00#16 id).awaitingKey = false ∧
    (decode (ready 0x3F00#16 id).fetchWord = .seByte 15 0x00#8 ∧ true = decide ((ready 0x3F00#16 id).getV 15 = 0x00#8)) ∧
    (decode (ready 0x4F00#16 id).fetchWord = .sneByte 15 0x00#8 ∧ false = decide ((ready 0x4F00#16 id).getV 15 ≠ 0x00#8)) ∧
    (decode (ready 0x5110#16 id).fetchWord = .seReg 1 1 ∧ true = decide ((ready 0x5110#16 id).getV 1 = (ready 0x5110#16 id).getV 1)) ∧
    (decode (ready 0x9110#16 id).fetchWord = .sneReg 1 1 ∧ false = decide ((ready 0x9110#16 id).getV 1 ≠ (ready 0x9110#16 id).getV 1)) ∧
    (decode (ready 0xE39E#16 id).fetchWord = .skp 3 ∧
      false = (ready 0xE39E#16 id).keys.getLsbD (((ready 0xE39E#16 id).getV 3).toNat % 16)) ∧
    (decode (ready 0xE3A1#16 id).fetchWord = .sknp 3 ∧
      true = !(ready 0xE3A1#16 id).keys.getLsbD (((ready 0xE3A1#16 id).getV 3).toNat % 16)) := by decide +kernel

/-- O35 to O37: a destination other than VF, at the edge. -/
theorem witness_destination_other_than_VF : (14 : Reg) ≠ 15 := by decide

/-- O38: a mask with a clear bit, and a Step of RND. -/
theorem witness_RandomByteIsMasked :
    (0x0F#8).getLsbD 4 = false ∧
    (let s := ready 0xCF0F#16 id
     s.running = true ∧ s.awaitingKey = false ∧ decode s.fetchWord = .rnd 15 0x0F#8) := by decide +kernel

/-- O41, O42: the first and the last register of a block. -/
theorem witness_block_registers : (0 : Reg) ≤ 0 ∧ (15 : Reg) ≤ 15 ∧ (0 : Reg) ≤ 15 := by decide

/-- The state of S5 with the sprite byte 0x80 at 0x300, drawn from `I` = 0x300 at (63, 31), with pixel (63, 31) as given. -/
def spriteAtCorner (b : Byte) : State :=
  (((((State.reset.setFB (setPixel [] 63 31 b)).setI 0x0300).memWrite 0x300 0x80).setV 0 0x3F).setV 1 0x1F)

/-- O44: a touched pixel that was on, a touched pixel that was off, and a sprite of no rows. -/
theorem witness_DrawXorsTheSpriteAndReportsCollision :
    (SpriteTouches (spriteAtCorner 0xFF) 0x3F 0x1F 1#4 63 31 ∧ (spriteAtCorner 0xFF).pixel 63 31 = 0xFF) ∧
    (SpriteTouches (spriteAtCorner 0x00) 0x3F 0x1F 1#4 63 31 ∧ (spriteAtCorner 0x00).pixel 63 31 = 0x00) ∧
    (¬ ∃ (px : Fin 64) (py : Fin 32), SpriteTouches State.reset 0x3F 0x1F 0#4 px py ∧ State.reset.pixel px py = 0xFF) := by
  refine ⟨⟨⟨0, 0, by decide, by decide, by decide +kernel, by decide, by decide⟩, by decide +kernel⟩,
    ⟨⟨0, 0, by decide, by decide, by decide +kernel, by decide, by decide⟩, by decide +kernel⟩, ?_⟩
  rintro ⟨-, -, ⟨r, -, hr, -⟩, -⟩
  exact absurd hr (Nat.not_lt_zero r)

/-- O45: S5, first draw over a pixel that was on and over one that was off; the coordinates are not in VF. -/
theorem witness_DoubleDrawRestoresTheScreen :
    ∀ b ∈ [(0x00 : Byte), 0xFF],
      (∀ (px : Fin 64) (py : Fin 32), (spriteAtCorner b).pixel px py = 0x00 ∨ (spriteAtCorner b).pixel px py = 0xFF) ∧
      ∃ t, exec (.drw 0 1 1#4) (spriteAtCorner b) = .next t ∧ t.getV 0 = (spriteAtCorner b).getV 0 ∧
        t.getV 1 = (spriteAtCorner b).getV 1 ∧
        ∃ px py, SpriteTouches (spriteAtCorner b) ((spriteAtCorner b).getV 0) ((spriteAtCorner b).getV 1) 1#4 px py := by
  intro b hb
  refine ⟨?_, _, rfl, ?_, ?_, 63, 31, 0, 0, by decide, by decide, ?_, ?_, ?_⟩
  · intro px py
    show pixelOf (setPixel [] 63 31 b) px py = 0x00 ∨ pixelOf (setPixel [] 63 31 b) px py = 0xFF
    rw [pixelOf_setPixel]
    split
    · simpa using hb
    · exact .inl rfl
  all_goals
    revert b
    decide +kernel

/-- O48: the first and the last index of each region. -/
theorem witness_ResetWritesTheListedStateOnly :
    ((0x050 ≤ 0x050 ∧ 0x050 < 0x200) ∨ (0xE00 ≤ 0x050 ∧ 0x050 < 0x1000)) ∧
    ((0x050 ≤ 0x1FF ∧ 0x1FF < 0x200) ∨ (0xE00 ≤ 0x1FF ∧ 0x1FF < 0x1000)) ∧
    ((0x050 ≤ 0xE00 ∧ 0xE00 < 0x200) ∨ (0xE00 ≤ 0xE00 ∧ 0xE00 < 0x1000)) ∧
    ((0x050 ≤ 0xFFF ∧ 0xFFF < 0x200) ∨ (0xE00 ≤ 0xFFF ∧ 0xFFF < 0x1000)) ∧ (0xBFF : Nat) < 0xC00 := by decide

/-- O50: the empty image and the longest one load, one byte more does not. -/
theorem witness_LoadStoresTheImageOrFails :
    ([] : List Byte).length ≤ 0xC00 ∧ (List.replicate 3072 (0xAB : Byte)).length ≤ 0xC00 ∧
    0xC00 < (List.replicate 3073 (0xCD : Byte)).length := by
  simp only [List.length_replicate]
  decide

/-- O51: a wait for VF, and none. -/
theorem witness_DeliveredKeyGoesToThePendingRegister :
    (State.reset.enterAwait 15).awaitingKey = true ∧ State.reset.awaitingKey = false := by decide

/-- O53: no wait, no key, and the highest key as the lowest pressed one. -/
theorem witness_HostTickDeliversTheLowestPressedKey :
    State.reset.awaitingKey = false ∧ (State.reset.enterAwait 3).awaitingKey = true ∧ (0x8000#16).getLsbD 15 = true ∧
    (∀ l < 15, (0x8000#16).getLsbD l = false) ∧ (0x0088#16).getLsbD 3 = true ∧ (∀ l < 3, (0x0088#16).getLsbD l = false) := by
  decide

/-- O56: an instruction that changes a register. -/
theorem witness_GeneralRegistersAreWrittenOnlyAsListed :
    ∃ t, exec (.ldByte 15 0xAB#8) State.reset = .next t ∧ t.getV 15 ≠ State.reset.getV 15 := ⟨_, rfl, by decide⟩

/-- O57: one change for each clause. -/
theorem witness_StorageSpacesAreWrittenOnlyByTheirInstructions :
    (∃ t, exec (.storeRegs 0) State.reset = .next t ∧ t.memRead 0 ≠ State.reset.memRead 0) ∧
    (∃ t, exec (.ldBVx 0) (State.reset.setV 0 0xFF) = .next t ∧ t.memRead 0 ≠ (State.reset.setV 0 0xFF).memRead 0) ∧
    (∃ t, exec (.call 0x300#12) State.reset = .next t ∧ t.stackRead 0 ≠ State.reset.stackRead 0) ∧
    (∃ t, exec .cls (spriteAtCorner 0xFF) = .next t ∧ t.pixel 63 31 ≠ (spriteAtCorner 0xFF).pixel 63 31) ∧
    (∃ t, exec (.drw 0 1 1#4) (spriteAtCorner 0x00) = .next t ∧ t.pixel 63 31 ≠ (spriteAtCorner 0x00).pixel 63 31) :=
  ⟨⟨_, rfl, by decide +kernel⟩, ⟨_, rfl, by decide +kernel⟩, ⟨_, rfl, by decide +kernel⟩, ⟨_, rfl, by decide +kernel⟩,
    ⟨_, rfl, by decide +kernel⟩⟩

/-- O58: one change for each clause. -/
theorem witness_SpecialRegistersAreWrittenOnlyByTheirInstructions :
    (∃ t, exec (.ldI 0xFFF#12) State.reset = .next t ∧ t.i ≠ State.reset.i) ∧
    (∃ t, exec .ret State.reset = .next t ∧ t.sp ≠ State.reset.sp) ∧
    (∃ t, exec (.ldDTVx 0) (State.reset.setV 0 0xFF) = .next t ∧ t.dt ≠ (State.reset.setV 0 0xFF).dt) ∧
    (∃ t, exec (.ldSTVx 0) (State.reset.setV 0 0xFF) = .next t ∧ t.st ≠ (State.reset.setV 0 0xFF).st) ∧
    (∃ t, exec (.ldVxK 15) State.reset = .next t ∧ t.awaitingKey ≠ State.reset.awaitingKey ∧ t.wreg ≠ State.reset.wreg) :=
  ⟨⟨_, rfl, by decide⟩, ⟨_, rfl, by decide⟩, ⟨_, rfl, by decide⟩, ⟨_, rfl, by decide⟩, ⟨_, rfl, by decide⟩⟩

end Sys2Proof.Tests
end

section
/-! The state family (10_state.md): what an executed instruction can change, said once as an effect, and the invariant of R44
kept by every effect, Step and transaction. -/

namespace Sys2Proof.Machine

/-! ## What an instruction can change -/

/-- From `s` to `t` only general registers change, and among them only those R21 lists for `i`. -/
def WritesOnlyRegisters (i : Instr) (s t : State) : Prop :=
  ∃ v, t = { s with v := v } ∧ ∀ x : Reg, t.getV x ≠ s.getV x → writesV i x

theorem WritesOnlyRegisters.refl (i : Instr) (s : State) : WritesOnlyRegisters i s s :=
  ⟨s.v, rfl, fun _ h => absurd rfl h⟩

theorem WritesOnlyRegisters.setV {i : Instr} {s t : State} (h : WritesOnlyRegisters i s t) {x : Reg} (hx : writesV i x)
    (b : Byte) : WritesOnlyRegisters i s (t.setV x b) := by
  obtain ⟨v, rfl, hv⟩ := h
  refine ⟨v.set x b, rfl, fun y hy => ?_⟩
  rw [State.getV_setV] at hy
  split at hy
  · next hyx => exact hyx ▸ hx
  · exact hv y hy

theorem writesOnlyRegisters_loadBlock (x : Reg) (s : State) :
    WritesOnlyRegisters (.loadRegs x) s (loadBlock (x.val + 1) s) := by
  refine ⟨_, loadBlock_frame s _, fun y hy => ?_⟩
  rw [getV_loadBlock s _ x.isLt] at hy
  split at hy
  · next hle => exact Nat.le_of_lt_succ hle
  · exact absurd rfl hy

/-- The framebuffer and the collision flag of DXYN (45_display.md R152). -/
def State.drawn (s : State) (x y : Reg) (n : Nibble) : Memory × Bool :=
  blitRows s.spriteRow (s.getV x).toNat (s.getV y).toNat n.toNat (s.fb, false)

/-- What the instruction `i` does to the state `s`, by the part of the state it writes. -/
inductive Effect (s : State) : Instr → State → Prop where
  | registers {i : Instr} {t : State} (h : WritesOnlyRegisters i s t) : Effect s i t
  | counter {i : Instr} (a : Word) : Effect s i (s.setPC a)
  | index {i : Instr} (a : Word) (hi : (∃ nnn, i = .ldI nnn) ∨ (∃ x, i = .addIVx x) ∨ ∃ x, i = .ldFVx x) :
      Effect s i (s.setI a)
  | ret : Effect s .ret (s.dropSlot.setPC s.popped)
  | call (nnn : Addr) : Effect s (.call nnn) ((s.push s.pc).setPC (addrWord nnn))
  | delay (x : Reg) : Effect s (.ldDTVx x) (s.setDT (s.getV x))
  | sound (x : Reg) : Effect s (.ldSTVx x) (s.setST (s.getV x))
  | await (x : Reg) : Effect s (.ldVxK x) (s.enterAwait x)
  | clear : Effect s .cls (s.setFB [])
  | draw (x y : Reg) (n : Nibble) : Effect s (.drw x y n) ((s.setFB (s.drawn x y n).1).setFlag (s.drawn x y n).2)
  | memory {i : Instr} (m : Memory) (hi : (∃ x, i = .ldBVx x) ∨ ∃ x, i = .storeRegs x)
      (hm : Memory.wf s.cfg.powerOnByte 4096 s.mem → Memory.wf s.cfg.powerOnByte 4096 m) :
      Effect s i { s with mem := m }

theorem Effect.skip (s : State) (i : Instr) (c : Bool) : Effect s i (s.skipIf c) :=
  s.skipIf_eq c ▸ .counter _

/-- An instruction that writes one register. -/
theorem Effect.register (s : State) {i : Instr} {x : Reg} {b : Byte} (hx : writesV i x) : Effect s i (s.setV x b) :=
  .registers ((WritesOnlyRegisters.refl i s).setV hx b)

/-- An instruction that writes two registers, one of them VF as a flag. -/
theorem Effect.registerPair (s : State) {i : Instr} {x y : Reg} {b c : Byte} (hx : writesV i x) (hy : writesV i y) :
    Effect s i ((s.setV x b).setV y c) :=
  .registers (((WritesOnlyRegisters.refl i s).setV hx b).setV hy c)

/-- Every instruction completes, with the effect of its row. -/
theorem exec_effect (i : Instr) (s : State) : ∃ t, exec i s = .next t ∧ Effect s i t := by
  cases i with
  | cls => exact ⟨_, rfl, .clear⟩
  | ret => exact ⟨_, rfl, .ret⟩
  | sys nnn =>
    refine ⟨_, rfl, ?_⟩
    split
    · exact .counter _
    · exact .registers (.refl _ s)
  | jp nnn => exact ⟨_, rfl, .counter _⟩
  | call nnn => exact ⟨_, rfl, .call nnn⟩
  | seByte x nn => exact ⟨_, rfl, .skip s _ _⟩
  | sneByte x nn => exact ⟨_, rfl, .skip s _ _⟩
  | seReg x y => exact ⟨_, rfl, .skip s _ _⟩
  | ldByte x nn => exact ⟨_, rfl, .register s rfl⟩
  | addByte x nn => exact ⟨_, rfl, .register s rfl⟩
  | ldReg x y => exact ⟨_, rfl, .register s rfl⟩
  | orReg x y => exact ⟨_, rfl, .register s rfl⟩
  | andReg x y => exact ⟨_, rfl, .register s rfl⟩
  | xorReg x y => exact ⟨_, rfl, .register s rfl⟩
  | addReg x y => exact ⟨_, rfl, .registerPair s (.inl rfl) (.inr rfl)⟩
  | subReg x y => exact ⟨_, rfl, .registerPair s (.inr rfl) (.inl rfl)⟩
  | shr x y => exact ⟨_, rfl, .registerPair s (.inr rfl) (.inl rfl)⟩
  | subnReg x y => exact ⟨_, rfl, .registerPair s (.inr rfl) (.inl rfl)⟩
  | shl x y => exact ⟨_, rfl, .registerPair s (.inr rfl) (.inl rfl)⟩
  | sneReg x y => exact ⟨_, rfl, .skip s _ _⟩
  | ldI nnn => exact ⟨_, rfl, .index _ (.inl ⟨nnn, rfl⟩)⟩
  | jpV0 nnn => exact ⟨_, rfl, .counter _⟩
  | rnd x nn => exact ⟨_, rfl, .register s rfl⟩
  | drw x y n => exact ⟨_, rfl, .draw x y n⟩
  | skp x => exact ⟨_, rfl, .skip s _ _⟩
  | sknp x => exact ⟨_, rfl, .skip s _ _⟩
  | ldVxDT x => exact ⟨_, rfl, .register s rfl⟩
  | ldVxK x => exact ⟨_, rfl, .await x⟩
  | ldDTVx x => exact ⟨_, rfl, .delay x⟩
  | ldSTVx x => exact ⟨_, rfl, .sound x⟩
  | addIVx x => exact ⟨_, rfl, .index _ (.inr (.inl ⟨x, rfl⟩))⟩
  | ldFVx x => exact ⟨_, rfl, .index _ (.inr (.inr ⟨x, rfl⟩))⟩
  | ldBVx x =>
    exact ⟨_, rfl, .memory _ (.inl ⟨x, rfl⟩) fun hm => wf_memWrite _ _ _ (wf_memWrite _ _ _ (wf_memWrite s _ _ hm))⟩
  | storeRegs x =>
    refine ⟨storeBlock (x.val + 1) s, rfl, ?_⟩
    rw [storeBlock_frame]
    exact .memory _ (.inr ⟨x, rfl⟩) (wf_storeBlock s _)
  | loadRegs x => exact ⟨_, rfl, .registers (writesOnlyRegisters_loadBlock x s)⟩
  | unhandled op => exact ⟨_, rfl, .registers (.refl _ s)⟩

theorem effect_of_exec {i : Instr} {s t : State} (h : exec i s = .next t) : Effect s i t := by
  obtain ⟨u, hu, he⟩ := exec_effect i s
  obtain rfl : u = t := Host.Outcome.next.inj (hu.symm.trans h)
  exact he

/-! ## The invariant: what it rests on, and the operations that keep it -/

/-- The parts of the state the invariant speaks of. -/
def State.constrained (s : State) : Config × Byte × Nat × Bool × Memory × Memory × Memory × Memory :=
  (s.cfg, s.sp, s.cyc, s.running, s.mem, s.stack, s.fb, s.img)

section
variable {s t : State}

/-- A change of no constrained part keeps the invariant. -/
theorem State.Inv.congr (h : s.Inv) (ht : t.constrained = s.constrained) : t.Inv := by
  simp only [State.constrained, Prod.mk.injEq] at ht
  obtain ⟨hcfg, hsp, hcyc, hrun, hmem, hstack, hfb, himg⟩ := ht
  have hpixel : ∀ x y, t.pixel x y = s.pixel x y := fun x y => by rw [State.pixel, State.pixel, hfb]
  constructor
  · exact hsp ▸ h.spEven
  · exact hcyc ▸ h.cycInStep
  · exact fun x y => hpixel x y ▸ h.pixelByte x y
  · exact hrun ▸ h.isRunning
  · exact hcfg ▸ hmem ▸ h.memWf
  · exact hstack ▸ h.stackWf
  · exact hfb ▸ h.fbWf
  · exact himg ▸ h.imgWf

theorem State.Inv.setSP (h : s.Inv) {b : Byte} (hb : b.toNat % 2 = 0) : (s.setSP b).Inv :=
  { h with spEven := hb }

theorem State.Inv.setCyc (h : s.Inv) {n : Nat} (hn : n % 10 = 0 ∧ n < 100) : (s.setCyc n).Inv :=
  { h with cycInStep := hn }

theorem State.Inv.stackWrite (h : s.Inv) (k : Nat) (b : Byte) : (s.stackWrite k b).Inv :=
  { h with stackWf := wf_stackWrite s k b h.stackWf }

theorem State.Inv.setFB (h : s.Inv) {fb : Memory} (hwf : Memory.wf zeroByte 2048 fb)
    (hpixel : ∀ (x : Fin 64) (y : Fin 32), pixelOf fb x y = 0x00 ∨ pixelOf fb x y = 0xFF) : (s.setFB fb).Inv :=
  { h with fbWf := hwf, pixelByte := hpixel }

theorem State.Inv.dropSlot (h : s.Inv) : s.dropSlot.Inv := by
  have heven : (s.sp - 2).toNat % 2 = 0 := by
    have := h.spEven
    bv_omega
  exact h.setSP heven

theorem State.Inv.push (h : s.Inv) (a : Word) : (s.push a).Inv := by
  have heven : (s.sp + 2).toNat % 2 = 0 := by
    have := h.spEven
    bv_omega
  exact ((h.stackWrite _ _).stackWrite _ _).setSP heven

theorem toggled_off_or_on (p : Byte) : toggled p = 0x00 ∨ toggled p = 0xFF := by
  unfold toggled
  split
  · exact .inl rfl
  · exact .inr rfl

/-- A drawn pixel is one the sprite toggles or one it leaves as it was (45_display.md R152). -/
theorem State.Inv.pixelOf_drawn (h : s.Inv) (x y : Reg) (n : Nibble) (c : Fin 64) (r : Fin 32) :
    pixelOf (s.drawn x y n).1 c r = 0x00 ∨ pixelOf (s.drawn x y n).1 c r = 0xFF := by
  have hn : n.toNat ≤ 32 := n.isLt.le.trans (by decide)
  obtain ⟨touched, untouched⟩ :=
    pixelOf_blitRows s.spriteRow (s.getV x).toNat (s.getV y).toNat n.toNat hn (s.fb, false) c r
  rw [State.drawn]
  by_cases hbit : ∃ j k, j < n.toNat ∧ k < 8 ∧ spriteBit (s.spriteRow j) k = true ∧
      c.val % 64 = ((s.getV x).toNat + k) % 64 ∧ r.val % 32 = ((s.getV y).toNat + j) % 32
  · rw [touched hbit]
    exact toggled_off_or_on _
  · rw [untouched hbit]
    exact h.pixelByte c r

theorem State.Inv.endStep (h : s.Inv) : s.endStep.Inv := by
  obtain ⟨hmod, hlt⟩ := h.cycInStep
  have hcount : s.countCycle.Inv := by
    unfold State.countCycle
    split
    · exact (h.setCyc (n := s.cyc + 10 - 100) (by omega)).congr rfl
    · exact h.setCyc (by omega)
  exact hcount.congr rfl

theorem State.Inv.effect {i : Instr} (h : s.Inv) (he : Effect s i t) : t.Inv := by
  cases he with
  | registers hw =>
    obtain ⟨v, rfl, -⟩ := hw
    exact h.congr rfl
  | counter a => exact h.congr rfl
  | index a hi => exact h.congr rfl
  | ret => exact h.dropSlot.congr rfl
  | call nnn => exact (h.push s.pc).congr rfl
  | delay x => exact h.congr rfl
  | sound x => exact h.congr rfl
  | await x => exact h.congr rfl
  | clear => exact h.setFB (Memory.wf_nil _ _) fun _ _ => .inl rfl
  | draw x y n => exact (h.setFB (wf_blitRows _ _ _ _ _ h.fbWf) (h.pixelOf_drawn x y n)).congr rfl
  | memory m hi hm => exact { h with memWf := hm h.memWf }

theorem State.Inv.step (h : s.Inv) (hst : step s = .next t) : t.Inv := by
  obtain ⟨-, rfl⟩ | ⟨-, u, hu, rfl⟩ := step_cases s t hst
  · exact h
  · have hpre : s.preAdvance.Inv := h.congr rfl
    exact (hpre.effect (effect_of_exec hu)).endStep

/-! ## Transactions -/

theorem State.Inv.stepWith (h : s.Inv) {rnd : Byte} (hst : s.stepWith rnd = .next t) : t.Inv := by
  have hrnd : ({ s with rndIn := some rnd } : State).Inv := h.congr rfl
  unfold State.stepWith at hst
  split at hst
  · exact hrnd.step hst
  · exact Host.Outcome.next.inj hst ▸ h

/-- A Run of at least one Step that answers a state is its first Step, then the Run of the rest (40_step_cycle.md R96). -/
theorem State.run_cons_cases {rnd : Byte} {rest : List Byte} (h : s.run (rnd :: rest) = .next t) :
    ∃ u, s.stepWith rnd = .next u ∧ u.run rest = .next t := by
  rw [State.run] at h
  split at h
  · next u hu => exact ⟨u, hu, h⟩
  · cases h
  · cases h

theorem State.Inv.run {rnds : List Byte} (h : s.Inv) (hrun : s.run rnds = .next t) : t.Inv := by
  induction rnds generalizing s with
  | nil => exact Host.Outcome.next.inj hrun ▸ h
  | cons rnd rest ih =>
    obtain ⟨u, hu, hrest⟩ := State.run_cons_cases hrun
    exact ih (h.stepWith hu) hrest

theorem State.setAwaitedKey_constrained (index : Nat) : (s.setAwaitedKey index).constrained = s.constrained := by
  unfold State.setAwaitedKey
  split <;> rfl

/-- Reset establishes the invariant wherever MEM and IMG are canonical. -/
theorem inv_resetCore (hmem : Memory.wf s.cfg.powerOnByte 4096 s.mem) (himg : Memory.wf zeroByte 3072 s.img) :
    s.resetCore.Inv where
  spEven := rfl
  cycInStep := ⟨rfl, (by decide : 0 < 100)⟩
  pixelByte _ _ := .inl rfl
  isRunning := rfl
  memWf := wf_resetMem s.cfg s.img s.mem himg hmem
  stackWf := Memory.wf_nil _ _
  fbWf := Memory.wf_nil _ _
  imgWf := himg

theorem State.Inv.loadROM (h : s.Inv) (bytes : List Byte) : (s.loadROM bytes).1.Inv := by
  unfold State.loadROM
  split
  · exact h
  · next hlen => exact inv_resetCore h.memWf (wf_imageOf bytes (Nat.le_of_not_lt hlen))

end

/-- The all-zero MEM lists exactly the bytes that FONT gives as nonzero. -/
theorem wf_zeroState_mem (c : Config) : Memory.wf c.powerOnByte 4096 (zeroState c).mem := by
  constructor
  · exact List.pairwise_map.2 (List.pairwise_lt_range.filter _)
  · intro e he
    obtain ⟨a, ha, rfl⟩ := List.mem_map.1 he
    obtain ⟨hlt, hne⟩ := List.mem_filter.1 ha
    exact ⟨(List.mem_range.1 hlt).trans (by decide), (of_decide_eq_true hne).symm⟩

theorem inv_powerOn (c : Config) : (State.powerOn c).Inv :=
  inv_resetCore (wf_zeroState_mem c) (Memory.wf_nil _ _)

theorem State.Inv.transact {s t : State} {a : Transaction} (h : s.Inv) (ht : s.transact a = .next t) : t.Inv := by
  cases a with
  | powerOn c => exact Host.Outcome.next.inj ht ▸ inv_powerOn c
  | reset => exact Host.Outcome.next.inj ht ▸ inv_resetCore h.memWf h.imgWf
  | loadROM bytes => exact Host.Outcome.next.inj ht ▸ h.loadROM bytes
  | step rnd => exact h.stepWith ht
  | run rnds => exact h.run ht
  | setKeys k => exact Host.Outcome.next.inj ht ▸ h.congr rfl
  | readKeys => exact Host.Outcome.next.inj ht ▸ h
  | setAwaitedKey index => exact Host.Outcome.next.inj ht ▸ h.congr (State.setAwaitedKey_constrained index)
  | readAwaiting => exact Host.Outcome.next.inj ht ▸ h
  | readFB x y => exact Host.Outcome.next.inj ht ▸ h

theorem State.Reachable.inv {s : State} (h : s.Reachable) : s.Inv := by
  induction h with
  | powerOn c => exact inv_powerOn c
  | transact s t a _ ht ih => exact ih.transact ht

/-- Above the font region an unlisted byte of MEM and one of IMG read alike, so the program region of MEM is IMG after a
Reset (70_reset_and_hazards.md R211). -/
theorem State.memRead_resetCore_program (s : State) (j : Nat) (hj : j < 0xC00) :
    s.resetCore.memRead (0x200 + j) = s.resetCore.imageByte j := by
  have hdefault : (fun k => s.cfg.powerOnByte (0x200 + k)) = zeroByte :=
    funext fun k => powerOnByte_of_ge s.cfg (0x200 + k) (by omega)
  obtain ⟨-, -, program, -⟩ := read_resetMem s.cfg.powerOnByte s.img s.mem (0x200 + j)
  have hread := program (by omega) (by omega)
  rw [hdefault, Nat.add_sub_cancel_left] at hread
  rw [State.memRead, Nat.mod_eq_of_lt (by omega)]
  exact hread

/-! ## The fetch -/

theorem State.memRead_of_same_mem {s t : State} (hmem : t.mem = s.mem) (hcfg : t.cfg = s.cfg) (a : Nat) :
    t.memRead a = s.memRead a := by
  rw [State.memRead, State.memRead, hmem, hcfg]

/-! ## The statements -/

/-- Settles O19: the decoded instruction has one of the effects above, and each keeps the invariant. -/
theorem everyStepKeepsTheInvariant : Obligations.EveryStepKeepsTheInvariant :=
  fun _ _ h hst => h.step hst

/-- Settles O20, by cases on the transaction. -/
theorem everyTransactionKeepsTheInvariant : Obligations.EveryTransactionKeepsTheInvariant :=
  fun _ _ _ h ht => h.transact ht

/-- Settles O12: every address is reduced modulo 4096 before MEM is read. -/
theorem fetchIgnoresTheHighBitsOfPC : Obligations.FetchIgnoresTheHighBitsOfPC := by
  intro s t hmem hcfg hpc
  have hhi : t.memRead t.pc.toNat = s.memRead s.pc.toNat :=
    (State.memRead_of_same_mem hmem hcfg _).trans (s.memRead_congr _ _ hpc)
  have hlo : t.memRead (t.pc.toNat + 1) = s.memRead (s.pc.toNat + 1) :=
    (State.memRead_of_same_mem hmem hcfg _).trans (s.memRead_congr _ _ (Nat.ModEq.add_right 1 hpc))
  rw [State.fetchWord, State.fetchWord, hhi, hlo]

/-- Settles O21: (a) to (d) from the invariant of the reachable states, (e) from what Reset leaves in MEM. -/
theorem reachableStatesMeetTheSpecsInvariants : Obligations.ReachableStatesMeetTheSpecsInvariants := by
  intro s hs
  have h := hs.inv
  have hcyc : s.cyc ∈ [0, 10, 20, 30, 40, 50, 60, 70, 80, 90] := by
    obtain ⟨hmod, hlt⟩ := h.cycInStep
    simp only [List.mem_cons, List.not_mem_nil, or_false]
    omega
  refine ⟨h.spEven, hcyc, h.pixelByte, h.isRunning, fun t ht j hj => ?_⟩
  obtain rfl : s.resetCore = t := Host.Outcome.next.inj ht
  exact s.memRead_resetCore_program j hj

/-- Settles O56: a register changes only by the register writers' effect and by DXYN's flag. -/
theorem generalRegistersAreWrittenOnlyAsListed : Obligations.GeneralRegistersAreWrittenOnlyAsListed := by
  intro i s t h x hx
  cases effect_of_exec h with
  | registers hw =>
    obtain ⟨-, -, listed⟩ := hw
    exact listed x hx
  | draw a b n =>
    rw [State.setFlag, State.getV_setV] at hx
    split at hx
    · next hvf => exact hvf
    · exact absurd rfl hx
  | counter | index | ret | call | delay | sound | await | clear | memory => exact absurd rfl hx

/-- Settles O58, by cases on the effect: each writes the registers its own instructions are listed with. -/
theorem specialRegistersAreWrittenOnlyByTheirInstructions :
    Obligations.SpecialRegistersAreWrittenOnlyByTheirInstructions := by
  intro i s t h
  cases effect_of_exec h with
  | registers hw =>
    obtain ⟨v, rfl, -⟩ := hw
    simp
  | index a hi => simp [hi]
  | ret => simp [State.dropSlot]
  | call nnn => simp [State.push]
  | draw a b n => simp [State.setFlag]
  | counter | delay | sound | await | clear | memory => simp

/-- Settles O18: a Reset of the state after power-on changes nothing, and Reset establishes the invariant. -/
theorem invariantHoldsAtReset : Obligations.InvariantHoldsAtReset := by
  obtain ⟨hmem, -, -, himg⟩ := wf_reset
  have hfixed : State.reset.resetCore = State.reset := rfl
  have hinv : State.reset.resetCore.Inv := inv_resetCore hmem himg
  rw [hfixed] at hinv
  exact hinv

end Sys2Proof.Machine
end

section
/-! The storage spaces (20_memory.md): what FX33 and FX55 leave in MEM, byte by byte, the fetch of the Step that follows, and
the instructions that write each space. -/

namespace Sys2Proof.Machine

/-! ## The digits of FX33 (44_index_memory.md R143) -/

/-- The state after the three digits of `b` are stored at `I`, `I + 1`, `I + 2`. -/
def State.storeDigits (s : State) (b : Byte) : State :=
  ((s.memWrite (s.ea 0) (bcdHundreds b)).memWrite (s.ea 1) (bcdTens b)).memWrite (s.ea 2) (bcdOnes b)

theorem exec_ldBVx (x : Reg) (s : State) : exec (.ldBVx x) s = .next (s.storeDigits (s.getV x)) := rfl

theorem bcdHundreds_toNat (b : Byte) : (bcdHundreds b).toNat = b.toNat / 100 % 10 := by
  rw [bcdHundreds, BitVec.toNat_ofNat]
  omega

theorem bcdTens_toNat (b : Byte) : (bcdTens b).toNat = b.toNat / 10 % 10 := by
  rw [bcdTens, BitVec.toNat_ofNat]
  omega

theorem bcdOnes_toNat (b : Byte) : (bcdOnes b).toNat = b.toNat % 10 := by
  rw [bcdOnes, BitVec.toNat_ofNat]
  omega

section
variable (s : State) (a : Nat)

@[simp] theorem State.ea_mod (k : Nat) : s.ea k % 4096 = s.ea k := Nat.mod_mod _ _

theorem State.memRead_storeDigits (b : Byte) :
    (s.storeDigits b).memRead a =
      if a % 4096 = s.ea 2 then bcdOnes b else if a % 4096 = s.ea 1 then bcdTens b
      else if a % 4096 = s.ea 0 then bcdHundreds b else s.memRead a := by
  rw [State.storeDigits, State.memRead_memWrite, State.memRead_memWrite, State.memRead_memWrite, State.ea_mod, State.ea_mod,
    State.ea_mod]

/-- The three addresses are distinct modulo 4096, so each holds its own digit, the most significant first. -/
theorem State.memRead_storeDigits_stored (b : Byte) {k : Nat} (hk : k < 3) (ha : s.ea k = a % 4096) :
    ((s.storeDigits b).memRead a).toNat = b.toNat / 10 ^ (2 - k) % 10 := by
  have hdistinct : s.ea 0 ≠ s.ea 1 ∧ s.ea 0 ≠ s.ea 2 ∧ s.ea 1 ≠ s.ea 2 := by
    simp only [State.ea]
    omega
  obtain ⟨h01, h02, h12⟩ := hdistinct
  rw [State.memRead_storeDigits, ← ha]
  interval_cases k
  · rw [if_neg h02, if_neg h01, if_pos rfl, bcdHundreds_toNat]
    rfl
  · rw [if_neg h12, if_pos rfl, bcdTens_toNat, pow_one]
  · rw [if_pos rfl, bcdOnes_toNat, pow_zero, Nat.div_one]

theorem State.memRead_storeDigits_other (b : Byte) (ha : ∀ k < 3, s.ea k ≠ a % 4096) :
    (s.storeDigits b).memRead a = s.memRead a := by
  rw [State.memRead_storeDigits, if_neg (ha 2 (by decide)).symm, if_neg (ha 1 (by decide)).symm,
    if_neg (ha 0 (by decide)).symm]

/-! ## The registers of FX55 (44_index_memory.md R144) -/

/-- At most sixteen addresses are written, so no later register overwrites an earlier one. -/
theorem memRead_storeBlock_stored {k x : Reg} (hk : k ≤ x) (ha : s.ea k.val = a % 4096) :
    (storeBlock (x.val + 1) s).memRead a = s.getV k := by
  have hle : k.val ≤ x.val := hk
  have hoffset : (a % 4096 + 4096 - s.i.toNat % 4096) % 4096 = k.val := by
    rw [State.ea] at ha
    omega
  rw [memRead_storeBlock s _ x.isLt, hoffset, if_pos (Nat.lt_succ_of_le hle), Fin.ofNat_val_eq_self]

theorem memRead_storeBlock_other {x : Reg} (ha : ∀ k : Reg, k ≤ x → s.ea k.val ≠ a % 4096) :
    (storeBlock (x.val + 1) s).memRead a = s.memRead a := by
  rw [memRead_storeBlock s _ x.isLt, if_neg]
  intro hlt
  refine ha ⟨(a % 4096 + 4096 - s.i.toNat % 4096) % 4096, by omega⟩ (Nat.le_of_lt_succ hlt) ?_
  simp only [State.ea]
  omega

end

/-! ## The fetch of the next Step (20_memory.md R65) -/

@[simp] theorem State.gateOpen_endStep (s : State) : s.endStep.gateOpen = s.gateOpen := by
  rw [State.endStep_frame]
  rfl

/-- After an instruction that leaves the gate open and `PC` at the pre-advance, the next Step fetches the two bytes the
instruction left at `PC + 2`. -/
theorem step_then_fetch {s u : State} (hg : s.gateOpen = true) (hu : exec (decode s.fetchWord) s.preAdvance = .next u)
    (hug : u.gateOpen = true) (hpc : u.pc = s.pc + 2) :
    ∃ t, step s = .next t ∧ t.gateOpen = true ∧ t.pc.toNat = (s.pc.toNat + 2) % 65536 ∧
      ∀ d < 2, t.fetchWord.toNat / 256 ^ (1 - d) % 256 = (u.memRead (s.pc.toNat + 2 + d)).toNat := by
  have hnext : u.endStep.pc.toNat = (s.pc.toNat + 2) % 65536 := by
    rw [State.endStep_pc, hpc, BitVec.toNat_add]
    rfl
  refine ⟨u.endStep, step_of_gateOpen s hg u hu, by rw [State.gateOpen_endStep, hug], hnext, fun d hd => ?_⟩
  rw [State.fetchWord_byte _ d hd, State.memRead_endStep, hnext, u.memRead_congr _ (s.pc.toNat + 2 + d) (by omega)]

/-! ## The statements -/

/-- Settles O13: the next fetch reads what the instruction left in MEM, and each byte of either store is known. -/
theorem storedBytesAreFetchedAtOnce : Obligations.StoredBytesAreFetchedAtOnce := by
  intro s x hrun hawait
  have hg : s.gateOpen = true := by simp [State.gateOpen, hrun, hawait]
  constructor
  · intro hdec
    have hframe := storeBlock_frame s.preAdvance (x.val + 1)
    obtain ⟨t, hstep, htg, htpc, hbyte⟩ := step_then_fetch (u := storeBlock (x.val + 1) s.preAdvance) hg
      (by rw [hdec]; rfl) (by rw [hframe]; exact hg) (by rw [hframe]; rfl)
    refine ⟨t, hstep, htg, htpc, fun d hd => ⟨fun k hk ha => ?_, fun ha => ?_⟩⟩
    · rw [hbyte d hd, memRead_storeBlock_stored s.preAdvance _ hk ha]
      rfl
    · rw [hbyte d hd, memRead_storeBlock_other s.preAdvance _ ha]
      rfl
  · intro hdec
    obtain ⟨t, hstep, htg, htpc, hbyte⟩ := step_then_fetch (u := s.preAdvance.storeDigits (s.getV x)) hg
      (by rw [hdec]; exact exec_ldBVx x s.preAdvance) hg rfl
    refine ⟨t, hstep, htg, htpc, fun d hd => ⟨fun k hk ha => ?_, fun ha => ?_⟩⟩
    · rw [hbyte d hd, s.preAdvance.memRead_storeDigits_stored _ _ hk ha]
    · rw [hbyte d hd, s.preAdvance.memRead_storeDigits_other _ _ ha]
      rfl

/-- Settles O57, by cases on the effect: each storage space is written by one kind of effect, whose instructions are the listed
ones, and KEYS, IMG, the configuration and `running` by none. -/
theorem storageSpacesAreWrittenOnlyByTheirInstructions : Obligations.StorageSpacesAreWrittenOnlyByTheirInstructions := by
  intro i s t h
  cases effect_of_exec h with
  | registers hw =>
    obtain ⟨v, rfl, -⟩ := hw
    simp [State.memRead, State.stackRead, State.pixel]
  | call nnn => simp [State.push]
  | draw x y n => simp [State.setFlag]
  | memory m hi => simp [hi, State.stackRead, State.pixel]
  | ret => simp [State.dropSlot]
  | counter | index | delay | sound | await | clear => simp

end Sys2Proof.Machine
end

section
/-! The encoding family (30_encoding.md): decoding and encoding undo each other, the unhandled words are those of R78, and the
opcode map of R77 names the instruction the decoder gives. -/

namespace Sys2Proof

/-! ## The word of an instruction decodes to it (R73, R74) -/

theorem decode_encode (i : Instr) (h : i.wellFormed = true) : decode (encode i) = i := by
  cases i with
  | cls => exact Laws.DecodeEncode.cls h
  | ret => exact Laws.DecodeEncode.ret h
  | sys nnn => exact Laws.DecodeEncode.sys nnn h
  | jp nnn => exact Laws.DecodeEncode.jp nnn h
  | call nnn => exact Laws.DecodeEncode.call nnn h
  | seByte x nn => exact Laws.DecodeEncode.seByte x nn h
  | sneByte x nn => exact Laws.DecodeEncode.sneByte x nn h
  | seReg x y => exact Laws.DecodeEncode.seReg x y h
  | ldByte x nn => exact Laws.DecodeEncode.ldByte x nn h
  | addByte x nn => exact Laws.DecodeEncode.addByte x nn h
  | ldReg x y => exact Laws.DecodeEncode.ldReg x y h
  | orReg x y => exact Laws.DecodeEncode.orReg x y h
  | andReg x y => exact Laws.DecodeEncode.andReg x y h
  | xorReg x y => exact Laws.DecodeEncode.xorReg x y h
  | addReg x y => exact Laws.DecodeEncode.addReg x y h
  | subReg x y => exact Laws.DecodeEncode.subReg x y h
  | shr x y => exact Laws.DecodeEncode.shr x y h
  | subnReg x y => exact Laws.DecodeEncode.subnReg x y h
  | shl x y => exact Laws.DecodeEncode.shl x y h
  | sneReg x y => exact Laws.DecodeEncode.sneReg x y h
  | ldI nnn => exact Laws.DecodeEncode.ldI nnn h
  | jpV0 nnn => exact Laws.DecodeEncode.jpV0 nnn h
  | rnd x nn => exact Laws.DecodeEncode.rnd x nn h
  | drw x y n => exact Laws.DecodeEncode.drw x y n h
  | skp x => exact Laws.DecodeEncode.skp x h
  | sknp x => exact Laws.DecodeEncode.sknp x h
  | ldVxDT x => exact Laws.DecodeEncode.ldVxDT x h
  | ldVxK x => exact Laws.DecodeEncode.ldVxK x h
  | ldDTVx x => exact Laws.DecodeEncode.ldDTVx x h
  | ldSTVx x => exact Laws.DecodeEncode.ldSTVx x h
  | addIVx x => exact Laws.DecodeEncode.addIVx x h
  | ldFVx x => exact Laws.DecodeEncode.ldFVx x h
  | ldBVx x => exact Laws.DecodeEncode.ldBVx x h
  | storeRegs x => exact Laws.DecodeEncode.storeRegs x h
  | loadRegs x => exact Laws.DecodeEncode.loadRegs x h
  | unhandled op => exact Laws.DecodeEncode.unhandled op h

/-! ## A word is the word of the instruction it decodes to (R73, R79) -/

/-- `i` is a well-formed instruction whose word is `op`. -/
def IsReadingOf (op : Word) (i : Instr) : Prop := encode i = op ∧ i.wellFormed = true

section
variable {op : Word}

section
variable {g : Nibble} (hg : (opG op).toNat = g.toNat)
include hg

theorem wordA_of_group : wordA g (opNNN op) = op := by
  rw [← BitVec.eq_of_toNat_eq hg, wordA_fields]

theorem wordRI_of_group : wordRI g (opX op) (opNN op) = op := by
  rw [← BitVec.eq_of_toNat_eq hg, wordRI_fields]

theorem wordRR_of_group : wordRR g (opX op) (opY op) (opN op) = op := by
  rw [← BitVec.eq_of_toNat_eq hg, wordRR_fields]

theorem wordRI_of_selector {nn : Byte} (hn : opNN op = nn) : wordRI g (opX op) nn = op := hn ▸ wordRI_of_group hg

theorem wordRR_of_selector {n : Nibble} (hn : (opN op).toNat = n.toNat) : wordRR g (opX op) (opY op) n = op :=
  BitVec.eq_of_toNat_eq hn ▸ wordRR_of_group hg

end

/-- R79: a word of group 0 other than 0x00E0 and 0x00EE has an address that `SYS addr` admits. -/
theorem sysOperandOk_opNNN (hg : (opG op).toNat = 0) (hcls : op ≠ 0x00E0#16) (hret : op ≠ 0x00EE#16) :
    sysOperandOk (opNNN op) = true := by
  have hword : wordA 0#4 (opNNN op) = op := wordA_of_group hg
  have h0 : opNNN op ≠ 0x0E0#12 := fun h => hcls (by rw [← hword, h]; decide)
  have h1 : opNNN op ≠ 0x0EE#12 := fun h => hret (by rw [← hword, h]; decide)
  simp [sysOperandOk, h0, h1]

theorem isReadingOf_unhandled (h : unhandledWord op = true) : IsReadingOf op (.unhandled op) := ⟨rfl, h⟩

theorem isReadingOf_unhandled_of_nibble (hg : (opG op).toNat = 5 ∨ (opG op).toNat = 9) (hn : opN op ≠ 0#4) :
    IsReadingOf op (.unhandled op) := by
  have hn : (opN op).toNat ≠ 0 := fun h => hn (BitVec.eq_of_toNat_eq h)
  refine isReadingOf_unhandled ?_
  rcases hg with hg | hg <;> simp [unhandledWord, ← opG_toNat, ← opN_toNat, hg, hn]

/-- The list of R78 for group 8, as a range without 0xE. -/
theorem mem_unhandledNibbles_iff {n : Nat} (hn : n < 16) : n ∈ [8, 9, 10, 11, 12, 13, 15] ↔ 8 ≤ n ∧ n ≠ 0xE := by
  interval_cases n <;> decide

theorem isReadingOf_decodeGroup8 (hg : (opG op).toNat = 8) : IsReadingOf op (decodeGroup8 op) := by
  have hlt := (opN op).isLt
  unfold decodeGroup8
  split
  case h_10 =>
    refine isReadingOf_unhandled ?_
    simp only [imp_false] at *
    have hn : (opN op).toNat ∈ [8, 9, 10, 11, 12, 13, 15] := (mem_unhandledNibbles_iff hlt).mpr (by omega)
    simp [unhandledWord, ← opG_toNat, ← opN_toNat, hg, hn, -List.mem_cons]
  all_goals exact ⟨wordRR_of_selector hg ‹_›, rfl⟩

theorem isReadingOf_decodeGroupE (hg : (opG op).toNat = 14) : IsReadingOf op (decodeGroupE op) := by
  unfold decodeGroupE
  split_ifs with h9E hA1
  case neg =>
    refine isReadingOf_unhandled ?_
    simp only [← BitVec.toNat_inj] at h9E hA1
    simpa [unhandledWord, ← opG_toNat, ← opNN_toNat, hg] using And.intro h9E hA1
  all_goals exact ⟨wordRI_of_selector hg ‹_›, rfl⟩

theorem isReadingOf_decodeGroupF (hg : (opG op).toNat = 15) : IsReadingOf op (decodeGroupF op) := by
  unfold decodeGroupF
  split_ifs with h07 h0A h15 h18 h1E h29 h33 h55 h65
  case neg =>
    refine isReadingOf_unhandled ?_
    simp only [← BitVec.toNat_inj] at h07 h0A h15 h18 h1E h29 h33 h55 h65
    simpa [unhandledWord, ← opG_toNat, ← opNN_toNat, hg] using And.intro h07 ⟨h0A, h15, h18, h1E, h29, h33, h55, h65⟩
  all_goals exact ⟨wordRI_of_selector hg ‹_›, rfl⟩

end

/-- Every word has a reading, the decoder's: its group's fields put together again, by cases on the group. -/
theorem isReadingOf_decode (op : Word) : IsReadingOf op (decode op) := by
  have hlt := (opG op).isLt
  unfold decode
  split
  case h_1 hg =>
    split_ifs with hcls hret
    · exact ⟨hcls.symm, rfl⟩
    · exact ⟨hret.symm, rfl⟩
    · exact ⟨wordA_of_group hg, sysOperandOk_opNNN hg hcls hret⟩
  case h_2 hg | h_3 hg | h_11 hg | h_12 hg => exact ⟨wordA_of_group hg, rfl⟩
  case h_4 hg | h_5 hg | h_7 hg | h_8 hg | h_13 hg => exact ⟨wordRI_of_group hg, rfl⟩
  case h_6 hg =>
    split_ifs with hn
    · exact ⟨wordRR_of_selector hg (congrArg BitVec.toNat hn), rfl⟩
    · exact isReadingOf_unhandled_of_nibble (.inl hg) hn
  case h_9 hg => exact isReadingOf_decodeGroup8 hg
  case h_10 hg =>
    split_ifs with hn
    · exact ⟨wordRR_of_selector hg (congrArg BitVec.toNat hn), rfl⟩
    · exact isReadingOf_unhandled_of_nibble (.inr hg) hn
  case h_14 hg => exact ⟨wordRR_of_group hg, rfl⟩
  case h_15 hg => exact isReadingOf_decodeGroupE hg
  case h_16 =>
    simp only [imp_false] at *
    exact isReadingOf_decodeGroupF (by omega)

/-! ## The unhandled words (R78) -/

theorem exists_decode_eq_unhandled_iff (op : Word) : (∃ w, decode op = .unhandled w) ↔ unhandledWord op = true := by
  obtain ⟨hword, hwf⟩ := isReadingOf_decode op
  constructor
  · rintro ⟨w, hw⟩
    rw [hw] at hword hwf
    exact hword ▸ hwf
  · exact fun h => ⟨op, decode_encode (.unhandled op) h⟩

/-! ## The opcode map (R77): the row that decides a word -/

theorem overlap_of_selects {op : Word} {r q : OpcodeRow} (hr : r.selects op = true) (hq : q.selects op = true) :
    q.value &&& r.mask = r.value &&& q.mask := by
  rw [OpcodeRow.selects, beq_iff_eq] at hr hq
  rw [← hr, ← hq, BitVec.and_assoc, BitVec.and_assoc, BitVec.and_comm q.mask]

/-- Of two different rows that can select one word, the second has fewer mask bits, unless the first is the row of `SYS addr` and the
second CLS or RET, or the first is the catch-all. -/
theorem maskBits_lt_of_overlap : ∀ r ∈ opcodeRows, ∀ q ∈ opcodeRows, q.value &&& r.mask = r.value &&& q.mask →
    q = r ∨ q.maskBits < r.maskBits ∨ (r.mnemonic = "SYS_addr" ∧ q.mask = 0xFFFF#16) ∨
      (r.mnemonic = "UNHANDLED" ∧ q.mask ≠ 0#16) := by
  decide

theorem filter_opcodeRows_eq : ∀ r ∈ opcodeRows, opcodeRows.filter (· = r) = [r] := by decide

/-- A row that selects the word, and that has more mask bits than every other row that does, decides it alone. -/
theorem tableMnemonics_eq {op : Word} {r : OpcodeRow} (hmem : r ∈ opcodeRows) (hr : r.selects op = true)
    (hmax : ∀ q ∈ opcodeRows, q.selects op = true → q = r ∨ q.maskBits < r.maskBits) :
    tableMnemonics op = [r.mnemonic] := by
  have hwins : ∀ q ∈ opcodeRows,
      ((∀ p ∈ opcodeRows, p.selects op = true → p.maskBits ≤ q.maskBits) ∧ q.selects op = true) ↔ q = r := by
    intro q hq
    constructor
    · rintro ⟨htop, hsel⟩
      exact (hmax q hq hsel).resolve_right (Nat.not_lt.mpr (htop r hmem hr))
    · rintro rfl
      refine ⟨fun p hp hsel => ?_, hr⟩
      rcases hmax p hp hsel with rfl | hlt
      · exact le_rfl
      · exact hlt.le
  have hrows : (opcodeRows.filter (·.selects op)).filter
      (fun q => (opcodeRows.filter (·.selects op)).all (fun p => p.maskBits ≤ q.maskBits)) = [r] := by
    rw [← filter_opcodeRows_eq r hmem, List.filter_filter]
    refine List.filter_congr fun q hq => ?_
    rw [Bool.eq_iff_iff]
    simpa [or_iff_not_imp_left] using hwins q hq
  rw [tableMnemonics, hrows]
  rfl

/-! ## The row of an instruction -/

theorem exists_row_of_group {op : Word} {g : Nibble} {m : String} (hg : opG op = g)
    (h : ⟨m, 0xF000#16, wordA g 0⟩ ∈ opcodeRows) : ∃ mask, ⟨m, mask, op &&& mask⟩ ∈ opcodeRows :=
  ⟨0xF000#16, by rwa [and_groupMask, hg]⟩

theorem exists_row_of_nibble {op : Word} {g n : Nibble} {m : String} (hg : opG op = g) (hn : opN op = n)
    (h : ⟨m, 0xF00F#16, wordRR g 0 0 n⟩ ∈ opcodeRows) : ∃ mask, ⟨m, mask, op &&& mask⟩ ∈ opcodeRows :=
  ⟨0xF00F#16, by rwa [and_nibbleMask, hg, hn]⟩

theorem exists_row_of_byte {op : Word} {g : Nibble} {nn : Byte} {m : String} (hg : opG op = g) (hn : opNN op = nn)
    (h : ⟨m, 0xF0FF#16, wordRI g 0 nn⟩ ∈ opcodeRows) : ∃ mask, ⟨m, mask, op &&& mask⟩ ∈ opcodeRows :=
  ⟨0xF0FF#16, by rwa [and_byteMask, hg, hn]⟩

/-- The table has a row of the instruction's mnemonic, whose match is the instruction's word under the row's mask. -/
theorem exists_row_of_encode (i : Instr) : ∃ mask, ⟨i.mnemonic, mask, encode i &&& mask⟩ ∈ opcodeRows := by
  cases i with
  | cls | ret => exact ⟨0xFFFF#16, by decide⟩
  | unhandled => exact ⟨0#16, by simp [opcodeRows, Instr.mnemonic]⟩
  | sys | jp | call | ldI | jpV0 =>
    exact exists_row_of_group (opG_wordA _ _) (by dsimp only [Instr.mnemonic]; decide)
  | seByte | sneByte | ldByte | addByte | rnd =>
    exact exists_row_of_group (opG_wordRI _ _ _) (by dsimp only [Instr.mnemonic]; decide)
  | drw => exact exists_row_of_group (opG_wordRR _ _ _ _) (by dsimp only [Instr.mnemonic]; decide)
  | seReg | ldReg | orReg | andReg | xorReg | addReg | subReg | shr | subnReg | shl | sneReg =>
    exact exists_row_of_nibble (opG_wordRR _ _ _ _) (opN_wordRR _ _ _ _) (by dsimp only [Instr.mnemonic]; decide)
  | skp | sknp | ldVxDT | ldVxK | ldDTVx | ldSTVx | addIVx | ldFVx | ldBVx | storeRegs | loadRegs =>
    exact exists_row_of_byte (opG_wordRI _ _ _) (opNN_wordRI _ _ _) (by dsimp only [Instr.mnemonic]; decide)

/-! ## The two rows that others stand over: `SYS addr` and the catch-all -/

theorem eq_of_selects_wordMask {op : Word} {r : OpcodeRow} (hmask : r.mask = 0xFFFF#16) (hsel : r.selects op = true) :
    op = r.value := by
  obtain ⟨m, mask, v⟩ := r
  subst hmask
  simpa [selects_word] using hsel

theorem mnemonic_ne_sys_of_wordMask : ∀ r ∈ opcodeRows, r.mask = 0xFFFF#16 →
    (decode r.value).mnemonic ≠ "SYS_addr" := by decide

theorem eq_unhandled_of_mnemonic {i : Instr} (h : i.mnemonic = "UNHANDLED") : ∃ w, i = .unhandled w := by
  cases i
  case unhandled op => exact ⟨op, rfl⟩
  all_goals exact absurd h (by simp [Instr.mnemonic])

/-- The bits of a word of group `g` that say whether it is unhandled: the group, and in five groups a selector. -/
def selectorMask (g : Nibble) : Word :=
  if g = 5#4 ∨ g = 8#4 ∨ g = 9#4 then 0xF00F#16 else if g = 14#4 ∨ g = 15#4 then 0xF0FF#16 else 0xF000#16

theorem unhandledWord_and_selectorMask (op : Word) :
    unhandledWord (op &&& selectorMask (opG op)) = unhandledWord op := by
  unfold selectorMask
  split_ifs with hnibble hbyte
  · rw [and_nibbleMask]
    rcases hnibble with h | h | h <;> simp [unhandledWord, ← opG_toNat, ← opN_toNat, h]
  · rw [and_byteMask]
    rcases hbyte with h | h <;> simp [unhandledWord, ← opG_toNat, ← opNN_toNat, h]
  · rw [and_groupMask, Bool.eq_iff_iff]
    simp only [← BitVec.toNat_inj, BitVec.reduceToNat, not_or] at hnibble hbyte
    simp [unhandledWord, ← opG_toNat, hnibble, hbyte]

/-- Every row but the catch-all fixes the selector of its group, at a value that is not unhandled. -/
theorem selectorMask_of_row : ∀ r ∈ opcodeRows, r.mask ≠ 0#16 →
    0xF000#16 &&& r.mask = 0xF000#16 ∧ selectorMask (opG r.value) &&& r.mask = selectorMask (opG r.value) ∧
      unhandledWord r.value = false := by decide

theorem and_eq_of_selects {op m : Word} {r : OpcodeRow} (hsel : r.selects op = true) (hm : m &&& r.mask = m) :
    op &&& m = r.value &&& m := by
  rw [OpcodeRow.selects, beq_iff_eq] at hsel
  rw [← hsel, BitVec.and_assoc, BitVec.and_comm r.mask, hm]

theorem unhandledWord_eq_false_of_selects {op : Word} {r : OpcodeRow} (hmem : r ∈ opcodeRows) (hmask : r.mask ≠ 0#16)
    (hsel : r.selects op = true) : unhandledWord op = false := by
  obtain ⟨hgroup, hselector, hhandled⟩ := selectorMask_of_row r hmem hmask
  have hg : opG op = opG r.value := by simpa [and_groupMask] using congrArg opG (and_eq_of_selects hsel hgroup)
  rw [← unhandledWord_and_selectorMask, hg, and_eq_of_selects hsel hselector, unhandledWord_and_selectorMask, hhandled]

/-! ## The statements -/

/-- Settles O2, by cases on the instruction: the fields of its word are its operands and its row's selector. -/
theorem decodingUndoesEncoding : Obligations.DecodingUndoesEncoding := decode_encode

/-- Settles O3: the decoder's reading of a word is a reading of it. -/
theorem encodingUndoesDecoding : Obligations.EncodingUndoesDecoding := isReadingOf_decode

/-- Settles O4. The row of the decoded instruction selects the word, and no other row that does has as many mask bits: CLS and
RET, which stand over `SYS addr`, are decoded before it, and a word that a row with a mask selects is not unhandled. -/
theorem decodeAgreesWithTheOpcodeTable : Obligations.DecodeAgreesWithTheOpcodeTable := by
  intro op
  obtain ⟨hword, -⟩ := isReadingOf_decode op
  obtain ⟨mask, hrow⟩ := exists_row_of_encode (decode op)
  rw [hword] at hrow
  have hsel : (OpcodeRow.mk (decode op).mnemonic mask (op &&& mask)).selects op = true := beq_self_eq_true _
  refine tableMnemonics_eq hrow hsel fun q hq hqsel => ?_
  rcases maskBits_lt_of_overlap _ hrow q hq (overlap_of_selects hsel hqsel) with
    heq | hlt | ⟨hsys, hfull⟩ | ⟨hun, hmask⟩
  · exact .inl heq
  · exact .inr hlt
  · rw [eq_of_selects_wordMask hfull hqsel] at hsys
    exact absurd hsys (mnemonic_ne_sys_of_wordMask q hq hfull)
  · have hlisted := (exists_decode_eq_unhandled_iff op).mp (eq_unhandled_of_mnemonic hun)
    rw [unhandledWord_eq_false_of_selects hq hmask hqsel] at hlisted
    exact absurd hlisted (by decide)

/-- Settles O5, as the check `unhandledWord` of the well-formed instructions written out. -/
theorem unhandledWordsAreExactlyThoseListed : Obligations.UnhandledWordsAreExactlyThoseListed := by
  intro op
  have hgroup8 := mem_unhandledNibbles_iff (Nat.mod_lt op.toNat (show 16 > 0 by decide))
  rw [exists_decode_eq_unhandled_iff]
  simp [unhandledWord, hgroup8, or_assoc, and_assoc, -List.mem_cons]

/-- Settles O1, by evaluating the decoder on the eight words. -/
theorem decodeReadsTheSpecsWords : Obligations.DecodeReadsTheSpecsWords := by
  unfold Obligations.DecodeReadsTheSpecsWords
  decide

end Sys2Proof
end

section
/-! The Step's family (40_step_cycle.md): the gate, the count and the tick, `Run` as its Steps, the no-op words, and the
transitions of the run mode. -/

namespace Sys2Proof.Machine

/-! ## The count and the tick (R94, 60_exceptions.md R196) -/

theorem decTimer_toNat (b : Byte) : (decTimer b).toNat = b.toNat - 1 := by
  unfold decTimer
  split
  · next hb => simp [hb]
  · next hb => bv_omega

section
variable (s : State)

theorem State.endStep_cyc (h : s.cyc < 100) : s.endStep.cyc = (s.cyc + 10) % 100 := by
  rw [State.endStep_eq]
  split
  · next hlt => exact (Nat.mod_eq_of_lt hlt).symm
  · show s.cyc + 10 - 100 = (s.cyc + 10) % 100
    omega

theorem State.endStep_timers_of_lt (h : s.cyc + 10 < 100) : s.endStep.dt = s.dt ∧ s.endStep.st = s.st := by
  rw [State.endStep_eq, if_pos h]
  exact ⟨rfl, rfl⟩

theorem State.endStep_timers_of_ge (h : 100 ≤ s.cyc + 10) :
    s.endStep.dt = decTimer s.dt ∧ s.endStep.st = decTimer s.st := by
  rw [State.endStep_eq, if_neg (Nat.not_lt.2 h)]
  exact ⟨rfl, rfl⟩

@[simp] theorem State.endStep_cfg : s.endStep.cfg = s.cfg := by
  rw [State.endStep_frame]

@[simp] theorem State.mode_endStep : s.endStep.mode = s.mode := by
  rw [State.endStep_frame]
  rfl

@[simp] theorem State.preAdvance_pc_toNat : s.preAdvance.pc.toNat = (s.pc.toNat + 2) % 65536 :=
  BitVec.toNat_add s.pc 2

theorem Component.same_refl (c : Component) (s : State) : c.same s s := by
  cases c with
  | rnd => exact ⟨rfl, rfl⟩
  | pc | cyc | dt | st | cfg | v | i | sp | running | awaitingKey | wreg | keys | stack | pixel | img | mem => rfl

/-- A Step whose instruction does nothing writes `PC`, `CYC`, the timers and the model's own fields of `rnd`, and nothing else. -/
theorem State.frame_preAdvance_endStep :
    Frame (fun c => c = .pc ∨ c = .cyc ∨ c = .dt ∨ c = .st ∨ c = .rnd) s s.preAdvance.endStep := by
  intro c hc
  rw [State.endStep_frame]
  cases c with
  | pc | cyc | dt | st | rnd => exact absurd (by simp) hc
  | cfg | v | i | sp | running | awaitingKey | wreg | keys | stack | pixel | img | mem => rfl

end

/-- No instruction writes CYC: the Step does (R93). -/
theorem cyc_of_exec {i : Instr} {s t : State} (h : exec i s = .next t) : t.cyc = s.cyc := by
  obtain ⟨-, -, -, -, -, hcyc⟩ := specialRegistersAreWrittenOnlyByTheirInstructions i s t h
  exact hcyc

/-! ## The gate (R91) and the Step with a presented byte -/

section
variable {s t u : State} {rnd : Byte} {rest rnds : List Byte}

theorem State.gateOpen_of_flags (hrun : s.running = true) (hawait : s.awaitingKey = false) : s.gateOpen = true := by
  rw [State.gateOpen, hrun, hawait]
  rfl

theorem State.gateOpen_eq_false_iff : s.gateOpen = false ↔ s.running = false ∨ s.awaitingKey = true := by
  rw [State.gateOpen, Bool.and_eq_false_iff, Bool.not_eq_false']

/-- The state with the byte the host presents to its Step (43_alu.md R133). -/
def State.withRnd (s : State) (rnd : Byte) : State := { s with rndIn := some rnd }

theorem State.stepWith_of_gateClosed (h : s.gateOpen = false) : s.stepWith rnd = .next s := by
  simp [State.stepWith, h]

theorem State.stepWith_of_gateOpen (h : s.gateOpen = true)
    (hu : exec (decode s.fetchWord) (s.withRnd rnd).preAdvance = .next u) : s.stepWith rnd = .next u.endStep := by
  rw [State.stepWith, if_pos h]
  exact step_of_gateOpen (s.withRnd rnd) h u hu

theorem State.exists_stepWith_eq (s : State) (rnd : Byte) : ∃ t, s.stepWith rnd = .next t := by
  cases hg : s.gateOpen with
  | false => exact ⟨s, State.stepWith_of_gateClosed hg⟩
  | true =>
    obtain ⟨u, hu, -⟩ := exec_effect (decode s.fetchWord) (s.withRnd rnd).preAdvance
    exact ⟨u.endStep, State.stepWith_of_gateOpen hg hu⟩

/-! ## Run is its Steps (R96) -/

theorem State.run_cons (h : s.stepWith rnd = .next u) : s.run (rnd :: rest) = u.run rest := by
  rw [State.run, h]

theorem State.run_of_gateClosed (h : s.gateOpen = false) (rnds : List Byte) : s.run rnds = .next s := by
  induction rnds with
  | nil => rfl
  | cons rnd rest ih => rw [State.run_cons (State.stepWith_of_gateClosed h), ih]

theorem State.exists_run_eq (s : State) (rnds : List Byte) : ∃ t, s.run rnds = .next t := by
  induction rnds generalizing s with
  | nil => exact ⟨s, rfl⟩
  | cons rnd rest ih =>
    obtain ⟨u, hu⟩ := s.exists_stepWith_eq rnd
    rw [State.run_cons hu]
    exact ih u

theorem State.run_append {first : List Byte} (h : s.run first = .next t) (second : List Byte) :
    s.run (first ++ second) = t.run second := by
  induction first generalizing s with
  | nil => rw [Host.Outcome.next.inj h, List.nil_append]
  | cons rnd rest ih =>
    obtain ⟨u, hu, hrest⟩ := State.run_cons_cases h
    rw [List.cons_append, State.run_cons hu, ih hrest]

/-! ## The no-op words (R95, 41_control_flow.md R102) -/

/-- The two bytes at `a` and `a + 1` are a word 0NNN (`SYS addr`) or an unhandled word: a no-op where the option is off. -/
def State.NoOpWordAt (s : State) (a : Nat) : Prop :=
  ∃ i, decode (wordOfBytes (s.memRead a) (s.memRead (a + 1))) = i ∧ ((∃ nnn, i = .sys nnn) ∨ ∃ op, i = .unhandled op)

theorem State.NoOpWordAt.congr {a b : Nat} (h : s.NoOpWordAt a) (hmem : ∀ k, t.memRead k = s.memRead k)
    (hab : b % 4096 = a % 4096) : t.NoOpWordAt b := by
  unfold State.NoOpWordAt
  rw [hmem, hmem, s.memRead_congr b a hab, s.memRead_congr (b + 1) (a + 1) (Nat.ModEq.add_right 1 hab)]
  exact h

theorem exec_of_noOp {i : Instr} (hi : (∃ nnn, i = .sys nnn) ∨ ∃ op, i = .unhandled op)
    (hlegacy : s.cfg.legacy = false) : exec i s = .next s := by
  rcases hi with ⟨nnn, rfl⟩ | ⟨op, rfl⟩
  · show execSys nnn s = .next s
    simp [execSys, hlegacy]
  · rfl

/-- The Step of a no-op word leaves the gate, the configuration and MEM alone, advances `PC`, counts, and ticks at 100. -/
theorem State.stepWith_of_noOpWord (rnd : Byte) (hg : s.gateOpen = true) (hlegacy : s.cfg.legacy = false)
    (hlt : s.cyc < 100) (hword : s.NoOpWordAt s.pc.toNat) :
    ∃ u, s.stepWith rnd = .next u ∧ u.gateOpen = true ∧ u.cfg = s.cfg ∧ (∀ a, u.memRead a = s.memRead a) ∧
      u.pc.toNat = (s.pc.toNat + 2) % 65536 ∧ u.cyc = (s.cyc + 10) % 100 ∧
      (s.cyc + 10 < 100 → u.dt = s.dt ∧ u.st = s.st) ∧
      (100 ≤ s.cyc + 10 → u.dt = decTimer s.dt ∧ u.st = decTimer s.st) := by
  obtain ⟨i, hdec, hi⟩ := hword
  have hexec : exec (decode s.fetchWord) (s.withRnd rnd).preAdvance = .next (s.withRnd rnd).preAdvance := by
    rw [State.fetchWord, hdec]
    exact exec_of_noOp hi hlegacy
  refine ⟨_, State.stepWith_of_gateOpen hg hexec, ?_, State.endStep_cfg _, State.memRead_endStep _, ?_,
    State.endStep_cyc _ hlt, (s.withRnd rnd).preAdvance.endStep_timers_of_lt,
    (s.withRnd rnd).preAdvance.endStep_timers_of_ge⟩
  · rw [State.gateOpen_endStep]
    exact hg
  · rw [State.endStep_pc]
    exact State.preAdvance_pc_toNat _

/-- A Run of no-op words that brings `CYC` to 100 ticks each timer once, on its last Step. -/
theorem State.run_noOpWords (hg : s.gateOpen = true) (hlegacy : s.cfg.legacy = false) (hlt : s.cyc < 100)
    (hcyc : s.cyc + 10 * rnds.length = 100) (hwords : ∀ k < rnds.length, s.NoOpWordAt (s.pc.toNat + 2 * k)) :
    ∃ t, s.run rnds = .next t ∧ t.dt = decTimer s.dt ∧ t.st = decTimer s.st ∧ t.cyc = 0 ∧
      t.pc.toNat = (s.pc.toNat + 2 * rnds.length) % 65536 := by
  induction rnds generalizing s with
  | nil =>
    rw [List.length_nil] at hcyc
    omega
  | cons rnd rest ih =>
    rw [List.length_cons] at hcyc hwords
    obtain ⟨u, hu, hug, hcfg, hmem, hpc, hucyc, hbefore, htick⟩ :=
      State.stepWith_of_noOpWord rnd hg hlegacy hlt (hwords 0 (Nat.zero_lt_succ _))
    rw [State.run_cons hu, List.length_cons]
    by_cases hless : s.cyc + 10 < 100
    · obtain ⟨hdt, hst⟩ := hbefore hless
      rw [← hdt, ← hst]
      obtain ⟨t, hrun, htdt, htst, htcyc, htpc⟩ := ih hug (hcfg ▸ hlegacy) (by omega) (by omega)
        fun k hk => (hwords (k + 1) (by omega)).congr hmem (by omega)
      exact ⟨t, hrun, htdt, htst, htcyc, by omega⟩
    · obtain ⟨hdt, hst⟩ := htick (Nat.le_of_not_lt hless)
      obtain rfl : rest = [] := List.eq_nil_of_length_eq_zero (by omega)
      exact ⟨u, rfl, hdt, hst, by omega, hpc⟩

/-! ## The run mode (10_state.md R45, 40_step_cycle.md R97) -/

theorem State.mode_eq_run_iff : s.mode = .run ↔ s.running = true ∧ s.awaitingKey = false := by
  unfold State.mode
  split_ifs <;> simp_all

theorem State.mode_eq_await_iff : s.mode = .await ↔ s.running = true ∧ s.awaitingKey = true := by
  unfold State.mode
  split_ifs <;> simp_all

theorem State.mode_congr (hrun : t.running = s.running) (hawait : t.awaitingKey = s.awaitingKey) : t.mode = s.mode := by
  rw [State.mode, State.mode, hrun, hawait]

theorem State.gateOpen_eq_false_of_mode_ne_run (h : s.mode ≠ .run) : s.gateOpen = false := by
  by_contra hg
  exact h (State.mode_eq_run_iff.2 (by simpa [State.gateOpen] using hg))

/-- FX0A is the one instruction that leaves the mode RUN (R97). -/
theorem mode_of_exec {i : Instr} (h : exec i s = .next t) (hs : s.mode = .run) :
    t.mode = .run ∧ (∀ x, i ≠ .ldVxK x) ∨ t.mode = .await ∧ ∃ x, i = .ldVxK x := by
  by_cases hi : ∃ x, i = .ldVxK x
  · obtain ⟨x, rfl⟩ := hi
    obtain rfl : s.enterAwait x = t := Host.Outcome.next.inj h
    obtain ⟨hrun, -⟩ := State.mode_eq_run_iff.1 hs
    exact .inr ⟨State.mode_eq_await_iff.2 ⟨hrun, rfl⟩, x, rfl⟩
  · obtain ⟨-, -, -, -, -, -, hrun⟩ := storageSpacesAreWrittenOnlyByTheirInstructions i s t h
    obtain ⟨-, -, -, -, hwait, -⟩ := specialRegistersAreWrittenOnlyByTheirInstructions i s t h
    have hawait : t.awaitingKey = s.awaitingKey := by
      by_contra hne
      exact hi (hwait (.inl hne))
    exact .inl ⟨(State.mode_congr hrun hawait).trans hs, fun x hx => hi ⟨x, hx⟩⟩

theorem State.mode_of_stepWith (hs : s.mode = .run) (h : s.stepWith rnd = .next t) :
    t.mode = .run ∧ (∀ x, decode s.fetchWord ≠ .ldVxK x) ∨ t.mode = .await ∧ ∃ x, decode s.fetchWord = .ldVxK x := by
  obtain ⟨hrun, hawait⟩ := State.mode_eq_run_iff.1 hs
  obtain ⟨u, hu, -⟩ := exec_effect (decode s.fetchWord) (s.withRnd rnd).preAdvance
  obtain rfl : u.endStep = t :=
    Host.Outcome.next.inj ((State.stepWith_of_gateOpen (State.gateOpen_of_flags hrun hawait) hu).symm.trans h)
  rw [State.mode_endStep]
  exact mode_of_exec hu hs

theorem State.eq_of_stepWith_of_mode_ne_run (hs : s.mode ≠ .run) (h : s.stepWith rnd = .next t) : t = s :=
  Host.Outcome.next.inj (h.symm.trans (State.stepWith_of_gateClosed (State.gateOpen_eq_false_of_mode_ne_run hs)))

theorem State.eq_of_run_of_mode_ne_run (hs : s.mode ≠ .run) (h : s.run rnds = .next t) : t = s :=
  Host.Outcome.next.inj (h.symm.trans (State.run_of_gateClosed (State.gateOpen_eq_false_of_mode_ne_run hs) rnds))

theorem State.mode_ne_of_stepWith (h : s.stepWith rnd = .next t) (hne : t.mode ≠ s.mode) :
    s.mode = .run ∧ t.mode = .await ∧ ∃ x, decode s.fetchWord = .ldVxK x := by
  have hs : s.mode = .run := by
    by_contra hs
    exact hne (congrArg State.mode (State.eq_of_stepWith_of_mode_ne_run hs h))
  rcases State.mode_of_stepWith hs h with ⟨ht, -⟩ | ⟨ht, hx⟩
  · exact absurd (ht.trans hs.symm) hne
  · exact ⟨hs, ht, hx⟩

/-- A Run changes the mode by one of its Steps, which executes FX0A in RUN; the Steps after it change nothing. -/
theorem State.mode_ne_of_run (h : s.run rnds = .next t) (hne : t.mode ≠ s.mode) :
    ∃ first rnd rest u x, rnds = first ++ rnd :: rest ∧ s.mode = .run ∧ s.run first = .next u ∧ u.mode = .run ∧
      decode u.fetchWord = .ldVxK x ∧ t.mode = .await := by
  induction rnds generalizing s with
  | nil => exact absurd (congrArg State.mode (Host.Outcome.next.inj h).symm) hne
  | cons rnd rest ih =>
    obtain ⟨u, hu, hrest⟩ := State.run_cons_cases h
    by_cases hmode : u.mode = s.mode
    · obtain ⟨first, rnd', rest', w, x, rfl, hrun, hfirst, hw⟩ := ih hrest (hmode ▸ hne)
      exact ⟨rnd :: first, rnd', rest', w, x, rfl, hmode ▸ hrun, (State.run_cons hu).trans hfirst, hw⟩
    · obtain ⟨hs, hawait, x, hx⟩ := State.mode_ne_of_stepWith hu hmode
      obtain rfl : t = u := State.eq_of_run_of_mode_ne_run (by rw [hawait]; decide) hrest
      exact ⟨[], rnd, rest, s, x, rfl, hs, rfl, hs, hx, hawait⟩

@[simp] theorem State.mode_resetCore (s : State) : s.resetCore.mode = .run := rfl

theorem State.mode_loadROM (s : State) (bytes : List Byte) :
    (s.loadROM bytes).1.mode = if bytes.length ≤ 3072 then .run else s.mode := by
  by_cases h : bytes.length ≤ 3072
  · rw [State.loadROM, if_neg (Nat.not_lt.2 h), if_pos h, State.mode_resetCore]
  · rw [State.loadROM, if_pos (Nat.lt_of_not_le h), if_neg h]

theorem State.mode_setAwaitedKey (s : State) (index : Nat) :
    (s.setAwaitedKey index).mode = if s.mode = .await then .run else s.mode := by
  cases hwait : s.awaitingKey with
  | false =>
    have hmode : s.mode ≠ .await := by simp [State.mode_eq_await_iff, hwait]
    rw [if_neg hmode, State.setAwaitedKey, if_neg (by simp [hwait])]
  | true =>
    rw [State.setAwaitedKey, if_pos hwait]
    cases hrun : s.running <;> simp [State.mode, State.leaveAwait, hwait, hrun]

/-- What can change the mode: FX0A in a Step or a Run, a delivered key, and the three ways to start anew (R97). -/
theorem State.mode_ne_of_transact {a : Transaction} (h : s.transact a = .next t) (hne : t.mode ≠ s.mode) :
    (∃ rnd x, a = .step rnd ∧ s.mode = .run ∧ decode s.fetchWord = .ldVxK x ∧ t.mode = .await) ∨
    (∃ first rnd rest u x, a = .run (first ++ rnd :: rest) ∧ s.mode = .run ∧ s.run first = .next u ∧ u.mode = .run ∧
      decode u.fetchWord = .ldVxK x ∧ t.mode = .await) ∨
    (∃ index, a = .setAwaitedKey index ∧ s.mode = .await) ∨
    a = .reset ∨
    (∃ bytes, a = .loadROM bytes ∧ bytes.length ≤ 3072) ∨
    ∃ c, a = .powerOn c := by
  cases a with
  | step rnd =>
    obtain ⟨hs, ht, x, hx⟩ := State.mode_ne_of_stepWith h hne
    exact .inl ⟨rnd, x, rfl, hs, hx, ht⟩
  | run rnds =>
    obtain ⟨first, rnd, rest, u, x, rfl, hu⟩ := State.mode_ne_of_run h hne
    exact .inr (.inl ⟨first, rnd, rest, u, x, rfl, hu⟩)
  | setAwaitedKey index =>
    refine .inr (.inr (.inl ⟨index, rfl, ?_⟩))
    by_contra hs
    rw [← Host.Outcome.next.inj h, State.mode_setAwaitedKey, if_neg hs] at hne
    exact hne rfl
  | reset => exact .inr (.inr (.inr (.inl rfl)))
  | loadROM bytes =>
    refine .inr (.inr (.inr (.inr (.inl ⟨bytes, rfl, ?_⟩))))
    by_contra hlen
    rw [← Host.Outcome.next.inj h, State.mode_loadROM, if_neg hlen] at hne
    exact hne rfl
  | powerOn c => exact .inr (.inr (.inr (.inr (.inr ⟨c, rfl⟩))))
  | setKeys | readKeys | readAwaiting | readFB => exact absurd (congrArg State.mode (Host.Outcome.next.inj h).symm) hne

/-- No transaction stops the core (R97). -/
theorem State.mode_stopped_of_transact {a : Transaction} (h : s.transact a = .next t) (ht : t.mode = .stopped) :
    s.mode = .stopped := by
  by_contra hs
  have hne : t.mode ≠ s.mode := by
    rw [ht]
    exact Ne.symm hs
  have hnew : t.mode ≠ .run ∧ t.mode ≠ .await := by
    rw [ht]
    decide
  obtain ⟨hrun, hawait⟩ := hnew
  rcases State.mode_ne_of_transact h hne with ⟨_, _, -, -, -, hmode⟩ | ⟨_, _, _, _, _, -, -, -, -, -, hmode⟩ |
    ⟨index, rfl, hmode⟩ | rfl | ⟨bytes, rfl, hlen⟩ | ⟨c, rfl⟩
  · exact hawait hmode
  · exact hawait hmode
  · exact hrun (by rw [← Host.Outcome.next.inj h, State.mode_setAwaitedKey, if_pos hmode])
  · exact hrun (by rw [← Host.Outcome.next.inj h, State.mode_resetCore])
  · exact hrun (by rw [← Host.Outcome.next.inj h, State.mode_loadROM, if_pos hlen])
  · exact hrun (by rw [← Host.Outcome.next.inj h]; rfl)

end

/-! ## The statements -/

/-- Settles O9: no instruction writes CYC, so the count starts from the Step's own CYC. -/
theorem cycleCountAndTickFollowEveryExecutedStep : Obligations.CycleCountAndTickFollowEveryExecutedStep := by
  intro s hrun hawait hmod hlt
  obtain ⟨u, hu, -⟩ := exec_effect (decode s.fetchWord) s.preAdvance
  have hcyc : u.cyc = s.preAdvance.cyc := cyc_of_exec hu
  rw [State.preAdvance, State.setPC_cyc] at hcyc
  refine ⟨u, u.endStep, hu, step_of_gateOpen s (State.gateOpen_of_flags hrun hawait) u hu, ?_, fun h90 => ?_, fun h90 => ?_⟩
  · rw [u.endStep_cyc (by omega), hcyc]
  · obtain ⟨hdt, hst⟩ := u.endStep_timers_of_ge (by omega)
    rw [hdt, hst]
    exact ⟨decTimer_toNat _, decTimer_toNat _⟩
  · exact u.endStep_timers_of_lt (by omega)

/-- Settles O10, as a Run of no-op words from `CYC` = 0. -/
theorem tenNoOpStepsTickEachTimerOnce : Obligations.TenNoOpStepsTickEachTimerOnce := by
  intro s rnds hrun hawait hcyc hlegacy hwords hlen
  obtain ⟨t, hrunTo, hdt, hst, htcyc, htpc⟩ := State.run_noOpWords (rnds := rnds) (State.gateOpen_of_flags hrun hawait)
    hlegacy (by omega) (by omega) (fun k hk => hwords k (by omega))
  exact ⟨t, hrunTo, by rw [hdt, decTimer_toNat], by rw [hst, decTimer_toNat], htcyc, by rw [htpc, hlen]⟩

/-- Settles O14: the Run of a list put together is the Run of its second part from the end of the first. -/
theorem runIsItsStepsInOrder : Obligations.RunIsItsStepsInOrder := by
  intro s rnd first second
  obtain ⟨u, hu⟩ := s.exists_stepWith_eq rnd
  obtain ⟨t, ht⟩ := s.exists_run_eq first
  exact ⟨rfl, (State.run_cons hu).trans hu.symm, fun hg => State.run_of_gateClosed hg first, rfl, t, ht,
    State.run_append ht second⟩

/-- Settles O17, transaction by transaction; a change of the mode comes from one of those listed. -/
theorem runModeChangesOnlyAsListed : Obligations.RunModeChangesOnlyAsListed := by
  intro s t
  refine ⟨fun rnd => State.mode_of_stepWith, fun rnd hs h => ?_, fun k h => ?_, fun x y h => ?_, fun bytes h => ?_,
    fun h => ?_, fun index h hs => ?_, fun c h => ?_, fun a => State.mode_stopped_of_transact,
    fun a => State.mode_ne_of_transact⟩
  · rw [State.eq_of_stepWith_of_mode_ne_run (by rw [hs]; decide) h, hs]
  · obtain rfl : s.setKeys k = t := Host.Outcome.next.inj h
    rfl
  · obtain rfl : s = t := Host.Outcome.next.inj h
    rfl
  · obtain rfl : (s.loadROM bytes).1 = t := Host.Outcome.next.inj h
    exact s.mode_loadROM bytes
  · obtain rfl : s.resetCore = t := Host.Outcome.next.inj h
    rfl
  · obtain rfl : s.setAwaitedKey index = t := Host.Outcome.next.inj h
    rw [State.mode_setAwaitedKey, if_pos hs]
  · obtain rfl : State.powerOn c = t := Host.Outcome.next.inj h
    rfl

/-- Settles O6: the two bytes decoded are those fetched, and the end of the Step is the count and the tick written out. -/
theorem stepRunsTheDecodedInstruction : Obligations.StepRunsTheDecodedInstruction := by
  intro s i hrun hawait _ hdec
  obtain ⟨rfl, -⟩ : decode s.fetchWord = i ∧ ([] : List Byte) = [] := Prod.mk.inj (Except.ok.inj hdec)
  obtain ⟨u, hu, -⟩ := exec_effect (decode s.fetchWord) s.preAdvance
  have hu' : exec (decode s.fetchWord) { s with pc := s.pc + 2 } = .next u := hu
  rw [step_of_gateOpen s (State.gateOpen_of_flags hrun hawait) u hu, hu', State.endStep_eq]
  rfl

/-- Settles O7. -/
theorem closedGateStepChangesNothing : Obligations.ClosedGateStepChangesNothing := by
  intro s rnd h
  have hg : s.gateOpen = false := State.gateOpen_eq_false_iff.2 h
  exact ⟨step_of_gateClosed s hg, State.stepWith_of_gateClosed hg⟩

/-- Settles O28: the Step of an unhandled word is the pre-advance and the end of the Step. -/
theorem unhandledWordIsANoOp : Obligations.UnhandledWordIsANoOp := by
  refine ⟨fun op s => ⟨s, rfl, fun c _ => c.same_refl s⟩, fun op s hrun hawait hdec => ?_⟩
  have hstep : step s = .next s.preAdvance.endStep :=
    step_of_gateOpen s (State.gateOpen_of_flags hrun hawait) _ (by rw [hdec]; rfl)
  have hcyc : s.cyc < 100 → s.preAdvance.endStep.cyc = (s.cyc + 10) % 100 := s.preAdvance.endStep_cyc
  refine ⟨_, hstep, by rw [State.endStep_pc, State.preAdvance_pc_toNat], fun h => ?_, fun h => ?_,
    s.frame_preAdvance_endStep⟩
  · rw [hcyc (by omega), Nat.mod_eq_of_lt h]
  · rw [hcyc (by omega), h]

end Sys2Proof.Machine
end

section
/-! The control transfers (41_control_flow.md): what a write leaves unchanged, the words of the call stack, and the calls that
go once around it. -/

namespace Sys2Proof.Machine

/-! ## Frames, one write at a time -/

section
variable {written : Component → Prop} {s t : State}

theorem Frame.refl (written : Component → Prop) (s : State) : Frame written s s :=
  fun c _ => c.same_refl s

theorem Frame.setPC (h : Frame written s t) (hpc : written .pc) (a : Word) : Frame written s (t.setPC a) := by
  intro c hc
  cases c with
  | pc => exact absurd hpc hc
  | cfg | v | i | sp | dt | st | cyc | running | awaitingKey | wreg | keys | stack | pixel | img | mem | rnd => exact h _ hc

theorem Frame.setSP (h : Frame written s t) (hsp : written .sp) (b : Byte) : Frame written s (t.setSP b) := by
  intro c hc
  cases c with
  | sp => exact absurd hsp hc
  | cfg | v | i | pc | dt | st | cyc | running | awaitingKey | wreg | keys | stack | pixel | img | mem | rnd => exact h _ hc

theorem Frame.stackWrite (h : Frame written s t) {k : Nat} (hk : ∀ j : Fin 256, j.val = k % 256 → written (.stack j))
    (b : Byte) : Frame written s (t.stackWrite k b) := by
  intro c hc
  cases c with
  | stack j =>
    have hj : j.val % 256 ≠ k % 256 := fun hj => hc (hk j (by omega))
    show (t.stackWrite k b).stackRead j = s.stackRead j
    rw [State.stackRead_stackWrite, if_neg hj]
    exact h _ hc
  | cfg | v | i | pc | sp | dt | st | cyc | running | awaitingKey | wreg | keys | pixel | img | mem | rnd => exact h _ hc

end

/-- A jump writes nothing but `PC`. -/
theorem State.frame_setPC (s : State) (a : Word) : Frame (fun c => c = .pc) s (s.setPC a) :=
  (Frame.refl (fun c => c = .pc) s).setPC rfl a

/-- The parts `Push` writes: `SP` and the two stack bytes at `SP` and `SP + 1` (R100). -/
theorem State.frame_push {written : Component → Prop} (s : State) (a : Word) (hsp : written .sp)
    (hstack : ∀ k : Fin 256, k.val = s.sp.toNat ∨ k.val = (s.sp.toNat + 1) % 256 → written (.stack k)) :
    Frame written s (s.push a) := by
  have hhi : ∀ k : Fin 256, k.val = s.sp.toNat % 256 → written (.stack k) :=
    fun k hk => hstack k (.inl (hk.trans (Nat.mod_eq_of_lt s.sp.isLt)))
  exact (((Frame.refl written s).stackWrite hhi _).stackWrite (fun k hk => hstack k (.inr hk)) _).setSP hsp _

/-! ## Targets -/

theorem addrWord_toNat (nnn : Addr) : (addrWord nnn).toNat = nnn.toNat :=
  BitVec.toNat_setWidth_of_le (by decide)

theorem offsetTarget_toNat (nnn : Addr) (b : Byte) : (offsetTarget nnn b).toNat = (nnn.toNat + b.toNat) % 4096 := by
  rw [offsetTarget, BitVec.toNat_ofNat]
  omega

/-! ## The words of the call stack (R100) -/

theorem wordOfBytes_of_extract (a : Word) : wordOfBytes (a.extractLsb' 8 8) (a.extractLsb' 0 8) = a := by
  obtain ⟨hi, lo, hbytes, hword⟩ := bytesOfWord_eq a
  cases hbytes
  exact hword

/-- The word the stack holds at `k` and `k + 1`, big-endian. -/
def State.stackWord (s : State) (k : Nat) : Word := wordOfBytes (s.stackRead k) (s.stackRead (k + 1))

theorem State.stackWord_eq_of_stackRead_eq {s t : State} (k : Nat)
    (h : ∀ j, j = k ∨ j = k + 1 → t.stackRead j = s.stackRead j) :
    t.stackWord k = s.stackWord k := by
  rw [State.stackWord, State.stackWord, h k (.inl rfl), h (k + 1) (.inr rfl)]

section
variable (s : State)

theorem State.stackWord_toNat (k : Nat) :
    (s.stackWord k).toNat = (s.stackRead k).toNat * 256 + (s.stackRead (k + 1)).toNat :=
  wordOfBytes_toNat _ _

theorem State.popped_eq_stackWord : s.popped = s.stackWord (s.sp - 2).toNat := rfl

theorem State.stackRead_congr {j k : Nat} (h : j % 256 = k % 256) : s.stackRead j = s.stackRead k := by
  rw [← State.stackRead_mod, h, State.stackRead_mod]

theorem State.stackWord_congr {j k : Nat} (h : j % 256 = k % 256) : s.stackWord j = s.stackWord k := by
  rw [State.stackWord, State.stackWord, s.stackRead_congr h, s.stackRead_congr (Nat.ModEq.add_right 1 h)]

/-- The two bytes of a word the stack holds. -/
theorem State.stackRead_toNat_of_stackWord {k : Nat} {a : Word} (h : s.stackWord k = a) :
    (s.stackRead k).toNat = a.toNat / 256 ∧ (s.stackRead (k + 1)).toNat = a.toNat % 256 := by
  have hword := s.stackWord_toNat k
  have hlo := (s.stackRead (k + 1)).isLt
  rw [h] at hword
  omega

theorem State.push_sp_toNat (a : Word) : (s.push a).sp.toNat = (s.sp.toNat + 2) % 256 :=
  BitVec.toNat_add s.sp 2

/-- The pushed word stands where `SP` was. -/
theorem State.stackWord_push (a : Word) : (s.push a).stackWord s.sp.toNat = a := by
  have hdistinct : s.sp.toNat % 256 ≠ (s.sp.toNat + 1) % 256 := by omega
  rw [State.stackWord, State.stackRead_push, State.stackRead_push, if_neg hdistinct, if_pos rfl, if_pos rfl,
    wordOfBytes_of_extract]

theorem State.stackRead_push_other (a : Word) {k : Nat} (hhi : k % 256 ≠ s.sp.toNat) (hlo : k % 256 ≠ (s.sp.toNat + 1) % 256) :
    (s.push a).stackRead k = s.stackRead k := by
  rw [← Nat.mod_eq_of_lt s.sp.isLt] at hhi
  rw [State.stackRead_push, if_neg hlo, if_neg hhi]

/-! ## Pushes one after another -/

/-- A byte that none of the pushes reaches is left alone. -/
theorem State.stackRead_foldl_push_other (words : List Word) {k : Nat}
    (hk : ∀ i < 2 * words.length, k % 256 ≠ (s.sp.toNat + i) % 256) :
    (words.foldl State.push s).stackRead k = s.stackRead k := by
  induction words generalizing s with
  | nil => rfl
  | cons a words ih =>
    rw [List.length_cons] at hk
    have hrest : ∀ i < 2 * words.length, k % 256 ≠ ((s.push a).sp.toNat + i) % 256 := by
      intro i hi
      have := hk (i + 2) (by omega)
      rw [State.push_sp_toNat]
      omega
    have hhi : k % 256 ≠ s.sp.toNat := by
      have := hk 0 (by omega)
      have := s.sp.isLt
      omega
    rw [List.foldl_cons, ih _ hrest, s.stackRead_push_other a hhi (hk 1 (by omega))]

/-- At most 128 pushes fill slots of their own, so each word is still there after the last. -/
theorem State.stackWord_foldl_push (words : List Word) (hlen : words.length ≤ 128) {j : Nat} (hj : j < words.length) :
    (words.foldl State.push s).stackWord (s.sp.toNat + 2 * j) = words[j] := by
  induction words generalizing s j with
  | nil => exact absurd hj (Nat.not_lt_zero j)
  | cons a words ih =>
    rw [List.length_cons] at hlen hj
    rw [List.foldl_cons]
    cases j with
    | zero =>
      have hkept : ∀ k, k = s.sp.toNat ∨ k = s.sp.toNat + 1 →
          (words.foldl State.push (s.push a)).stackRead k = (s.push a).stackRead k := by
        intro k hk
        refine State.stackRead_foldl_push_other _ words fun i hi => ?_
        rw [State.push_sp_toNat]
        omega
      exact (State.stackWord_eq_of_stackRead_eq _ hkept).trans (s.stackWord_push a)
    | succ j =>
      have hslot : (s.sp.toNat + 2 * (j + 1)) % 256 = ((s.push a).sp.toNat + 2 * j) % 256 := by
        rw [State.push_sp_toNat]
        omega
      rw [State.stackWord_congr _ hslot, ih _ (by omega) (by omega), List.getElem_cons_succ]

end

/-! ## The statements -/

/-- Settles O24: the return address is the word `Push` leaves where `SP` was. -/
theorem callPushesThePreAdvancedPC : Obligations.CallPushesThePreAdvancedPC := by
  intro nnn s
  obtain ⟨hhi, hlo⟩ := State.stackRead_toNat_of_stackWord _ (s.stackWord_push s.pc)
  refine ⟨_, rfl, hhi, hlo, s.push_sp_toNat s.pc, addrWord_toNat nnn, ?_⟩
  exact (s.frame_push s.pc (.inr (.inl rfl)) fun k hk => .inr (.inr ⟨k, rfl, hk⟩)).setPC (.inl rfl) _

/-- Settles O26: the slot below `SP` is the one the call filled. -/
theorem callThenReturnRestoresPCAndSP : Obligations.CallThenReturnRestoresPCAndSP := by
  intro nnn s t u hcall hsp hstack
  obtain rfl : (s.push s.pc).setPC (addrWord nnn) = t := Host.Outcome.next.inj hcall
  have hback : u.sp - 2 = s.sp := by
    rw [hsp]
    exact BitVec.add_sub_cancel s.sp 2
  refine ⟨u.dropSlot.setPC u.popped, rfl, ?_, hback⟩
  calc u.popped
    _ = u.stackWord s.sp.toNat := by rw [State.popped_eq_stackWord, hback]
    _ = (s.push s.pc).stackWord s.sp.toNat := State.stackWord_eq_of_stackRead_eq _ fun k _ => hstack k
    _ = s.pc := s.stackWord_push s.pc

/-- Settles O27: 128 slots of two bytes are the whole stack, so `SP` is back at the slot of the first push. -/
theorem deepCallsWrapOntoTheFirstSlot : Obligations.DeepCallsWrapOntoTheFirstSlot := by
  intro s u words b hlen hu
  have hsp : u.sp = s.sp := by
    apply BitVec.eq_of_toNat_eq
    have := s.sp.isLt
    rw [← hu, State.foldl_push_sp, hlen]
    omega
  have hlast : (u.push b).stackWord s.sp.toNat = b := hsp ▸ u.stackWord_push b
  obtain ⟨hhi, hlo⟩ := (u.push b).stackRead_toNat_of_stackWord hlast
  refine ⟨hsp, fun j hj => ?_, hhi, hlo, fun k hkhi hklo => ?_⟩
  · have hj' : j < words.length := hlen ▸ hj
    rw [← hu, List.getD_eq_getElem _ _ hj']
    exact State.stackRead_toNat_of_stackWord _ (s.stackWord_foldl_push words hlen.le hj')
  · rw [← hsp] at hkhi hklo
    exact u.stackRead_push_other b hkhi hklo

/-- Settles O22. -/
theorem jumpsAssignPC : Obligations.JumpsAssignPC :=
  fun nnn s => ⟨⟨_, rfl, addrWord_toNat nnn, s.frame_setPC _⟩,
    ⟨_, rfl, offsetTarget_toNat nnn (s.getV 0), s.frame_setPC _⟩⟩

/-- Settles O23, by cases on the option. -/
theorem machineCallJumpsOnlyWithTheOption : Obligations.MachineCallJumpsOnlyWithTheOption := by
  intro nnn s
  cases hlegacy : s.cfg.legacy with
  | false =>
    exact ⟨s, exec_of_noOp (.inl ⟨nnn, rfl⟩) hlegacy, nofun, fun _ => rfl, Frame.refl _ s⟩
  | true =>
    have hexec : exec (.sys nnn) s = .next (s.setPC (addrWord nnn)) := congrArg Host.Outcome.next (if_pos hlegacy)
    exact ⟨_, hexec, fun _ => addrWord_toNat nnn, nofun, s.frame_setPC _⟩

/-- Settles O25: `PC` is the word of the slot below `SP`, and no stack byte is written. -/
theorem returnPopsPC : Obligations.ReturnPopsPC := by
  intro s
  have hsp : (s.sp - 2).toNat = (s.sp.toNat + 254) % 256 := by bv_omega
  exact ⟨_, rfl, hsp, s.stackWord_toNat (s.sp - 2).toNat, ((Frame.refl _ s).setSP (.inr rfl) _).setPC (.inl rfl) _⟩

end Sys2Proof.Machine
end

section
/-! The skips (42_skips.md): where `skip` leaves `PC`, what it leaves unchanged, and the Step of a skip instruction. -/

namespace Sys2Proof.Machine

/-! ## `skip` (R110) -/

theorem State.skipIf_pc_toNat (s : State) (c : Bool) :
    (s.skipIf c).pc.toNat = if c then (s.pc.toNat + 2) % 65536 else s.pc.toNat := by
  cases c with
  | false => rfl
  | true => exact BitVec.toNat_add s.pc 2

section
variable {written : Component → Prop} {s t : State}

theorem Frame.skipIf (h : Frame written s t) (hpc : written .pc) (c : Bool) : Frame written s (t.skipIf c) :=
  t.skipIf_eq c ▸ h.setPC hpc _

/-- The end of a Step writes `CYC`, the timers and the model's own fields of `rnd` (40_step_cycle.md R94). -/
theorem Frame.endStep (h : Frame written s t) (hcyc : written .cyc) (hdt : written .dt) (hst : written .st)
    (hrnd : written .rnd) : Frame written s t.endStep := by
  intro c hc
  rw [State.endStep_frame]
  cases c with
  | cyc => exact absurd hcyc hc
  | dt => exact absurd hdt hc
  | st => exact absurd hst hc
  | rnd => exact absurd hrnd hc
  | cfg | v | i | pc | sp | running | awaitingKey | wreg | keys | stack | pixel | img | mem => exact h _ hc

end

/-- An instruction whose whole effect is a skip writes nothing but `PC`. -/
theorem State.frame_skipIf (s : State) (c : Bool) : Frame (fun d => d = .pc) s (s.skipIf c) :=
  (Frame.refl (fun d => d = .pc) s).skipIf rfl c

/-! ## The Step of a skip instruction -/

/-- The pre-advance and the skip add up: `PC` + 4 when the condition holds and `PC` + 2 when it does not. -/
theorem State.preAdvance_skipIf_pc_toNat (s : State) (c : Bool) :
    (s.preAdvance.skipIf c).pc.toNat = (s.pc.toNat + if c then 4 else 2) % 65536 := by
  rw [State.skipIf_pc_toNat, State.preAdvance_pc_toNat]
  cases c with
  | false => rfl
  | true => exact Nat.mod_add_mod _ _ _

theorem State.frame_preAdvance_skipIf_endStep (s : State) (c : Bool) :
    Frame (fun d => d = .pc ∨ d = .cyc ∨ d = .dt ∨ d = .st ∨ d = .rnd) s (s.preAdvance.skipIf c).endStep :=
  (((Frame.refl _ s).setPC (.inl rfl) _).skipIf (.inl rfl) c).endStep (by simp) (by simp) (by simp) (by simp)

/-! ## The statements -/

/-- Settles O31: each of the six instructions is `skipIf` of its condition, and the pre-advance changes no part a condition
reads. -/
theorem skipStepLandsAtPlusFourOrPlusTwo : Obligations.SkipStepLandsAtPlusFourOrPlusTwo := by
  intro s cond hrun hawait hskip
  have hexec : exec (decode s.fetchWord) s.preAdvance = .next (s.preAdvance.skipIf cond) := by
    rcases hskip with ⟨x, nn, hdec, rfl⟩ | ⟨x, nn, hdec, rfl⟩ | ⟨x, y, hdec, rfl⟩ | ⟨x, y, hdec, rfl⟩ | ⟨x, hdec, rfl⟩ |
      ⟨x, hdec, rfl⟩ <;> rw [hdec] <;> rfl
  refine ⟨_, step_of_gateOpen s (State.gateOpen_of_flags hrun hawait) _ hexec, ?_, s.frame_preAdvance_skipIf_endStep cond⟩
  rw [State.endStep_pc, State.preAdvance_skipIf_pc_toNat]

/-- Settles O29: each instruction is `skipIf` of its comparison. -/
theorem registerCompareSkips : Obligations.RegisterCompareSkips := by
  intro x y nn s
  refine ⟨⟨_, rfl, ?_, s.frame_skipIf _⟩, ⟨_, rfl, ?_, s.frame_skipIf _⟩, ⟨_, rfl, ?_, s.frame_skipIf _⟩,
    ⟨_, rfl, ?_, s.frame_skipIf _⟩⟩
  all_goals simp only [State.skipIf_pc_toNat, decide_eq_true_eq, ne_eq, ite_not]

end Sys2Proof.Machine
end

section
/-! The arithmetic family (43_alu.md): what a register write leaves unchanged, the flags and results as numbers, and the
instructions that write one register, or one register and VF. -/

namespace Sys2Proof.Machine

/-! ## Register writes: what is read back, and the frame -/

theorem Frame.setV {written : Component → Prop} {s t : State} (h : Frame written s t) {x : Reg} (hx : written (.v x))
    (b : Byte) : Frame written s (t.setV x b) := by
  intro c hc
  cases c with
  | v y =>
    have hy : y ≠ x := fun hy => hc (hy ▸ hx)
    show (t.setV x b).getV y = s.getV y
    rw [State.getV_setV, if_neg hy]
    exact h _ hc
  | cfg | i | pc | sp | dt | st | cyc | running | awaitingKey | wreg | keys | stack | pixel | img | mem | rnd => exact h _ hc

section
variable (s : State) (x : Reg) (b : Byte) (c : Bool)

theorem State.getV_setV_self : (s.setV x b).getV x = b := by
  rw [State.getV_setV, if_pos rfl]

theorem State.frame_setV : Frame (fun d => d = .v x) s (s.setV x b) :=
  (Frame.refl (fun d => d = .v x) s).setV rfl b

/-- R121: a flag written last stands, whatever the destination. -/
theorem State.getV_vf_setFlag : (s.setFlag c).getV 15 = flagByte c := s.getV_setV_self 15 (flagByte c)

theorem State.getV_setFlag_of_ne_vf {x : Reg} (hx : x ≠ 15) : (s.setFlag c).getV x = s.getV x := by
  rw [State.setFlag, State.getV_setV, if_neg hx]

/-- R121: a flag written first stands where the destination is not VF. -/
theorem State.getV_vf_setFlag_setV {x : Reg} (hx : x ≠ 15) : ((s.setFlag c).setV x b).getV 15 = flagByte c := by
  rw [State.getV_setV, if_neg hx.symm, State.getV_vf_setFlag]

theorem State.frame_setV_setFlag : Frame (fun d => d = .v x ∨ d = .v 15) s ((s.setV x b).setFlag c) :=
  ((Frame.refl (fun d => d = .v x ∨ d = .v 15) s).setV (.inl rfl) b).setV (.inr rfl) (flagByte c)

theorem State.frame_setFlag_setV : Frame (fun d => d = .v x ∨ d = .v 15) s ((s.setFlag c).setV x b) :=
  ((Frame.refl (fun d => d = .v x ∨ d = .v 15) s).setV (.inr rfl) (flagByte c)).setV (.inl rfl) b

@[simp] theorem State.getV_endStep : s.endStep.getV x = s.getV x := by
  rw [State.endStep_frame]
  rfl

end

/-! ## Flags and results as numbers -/

theorem flagByte_toNat (c : Bool) : (flagByte c).toNat = c.toNat := by
  cases c <;> rfl

section
variable (a b : Byte)

theorem flagByte_addCarry : flagByte (addCarry a b) = if a.toNat + b.toNat > 255 then 1 else 0 := by
  simp only [flagByte, addCarry, decide_eq_true_eq, gt_iff_lt]

theorem flagByte_noBorrow : flagByte (noBorrow a b) = if a.toNat ≥ b.toNat then 1 else 0 := by
  simp only [flagByte, noBorrow, decide_eq_true_eq, ge_iff_le]

theorem flagByte_shiftOutLow_toNat : (flagByte (shiftOutLow a)).toNat = a.toNat % 2 := by
  rw [flagByte_toNat, shiftOutLow, BitVec.getLsbD, Nat.toNat_testBit, pow_zero, Nat.div_one]

/-- Bit 7 is the highest, so the quotient by 128 is already the bit. -/
theorem flagByte_shiftOutHigh_toNat : (flagByte (shiftOutHigh a)).toNat = a.toNat / 128 := by
  have hquotient : a.toNat / 128 < 2 := Nat.div_lt_of_lt_mul a.isLt
  rw [flagByte_toNat, shiftOutHigh, BitVec.getLsbD, Nat.toNat_testBit]
  exact Nat.mod_eq_of_lt hquotient

theorem byte_sub_toNat : (a - b).toNat = (a.toNat + 256 - b.toNat) % 256 := by
  rw [BitVec.toNat_sub]
  omega

theorem byte_shiftRight_one_toNat : (a >>> 1).toNat = a.toNat / 2 := by
  rw [BitVec.toNat_ushiftRight, Nat.shiftRight_one]

theorem byte_shiftLeft_one_toNat : (a <<< 1).toNat = a.toNat * 2 % 256 := by
  rw [BitVec.toNat_shiftLeft, Nat.shiftLeft_eq, pow_one]

end

/-! ## The Step of CXNN (R133) -/

/-- The Step takes the byte the host presents to it, and its end writes no register. -/
theorem State.stepWith_rnd {s : State} {x : Reg} {nn : Byte} (rnd : Byte) (hg : s.gateOpen = true)
    (hdec : decode s.fetchWord = .rnd x nn) : ∃ t, s.stepWith rnd = .next t ∧ t.getV x = rnd &&& nn := by
  have hexec : exec (decode s.fetchWord) (s.withRnd rnd).preAdvance =
      .next ((s.withRnd rnd).preAdvance.setV x (rnd &&& nn)) := by
    rw [hdec]
    rfl
  exact ⟨_, State.stepWith_of_gateOpen hg hexec, by rw [State.getV_endStep, State.getV_setV_self]⟩

/-! ## The statements -/

/-- Settles O35: the sum is written first and the carry last, so the carry stands for every destination. -/
theorem addReportsTheCarryInVF : Obligations.AddReportsTheCarryInVF := by
  intro x y s
  refine ⟨_, rfl, fun hx => ?_, ?_, s.frame_setV_setFlag x _ _⟩
  · rw [State.getV_setFlag_of_ne_vf _ _ hx, State.getV_setV_self, BitVec.toNat_add]
  · rw [State.getV_vf_setFlag, flagByte_addCarry]

/-- Settles O36: the flag is written first and the difference last, so the difference stands for every destination. -/
theorem subtractionsReportNoBorrowInVF : Obligations.SubtractionsReportNoBorrowInVF := by
  intro x y s
  refine ⟨⟨_, rfl, ?_, fun hx => ?_, s.frame_setFlag_setV x _ _⟩, ⟨_, rfl, ?_, fun hx => ?_, s.frame_setFlag_setV x _ _⟩⟩
  · rw [State.getV_setV_self, byte_sub_toNat]
  · rw [State.getV_vf_setFlag_setV _ _ _ hx, flagByte_noBorrow]
  · rw [State.getV_setV_self, byte_sub_toNat]
  · rw [State.getV_vf_setFlag_setV _ _ _ hx, flagByte_noBorrow]

/-- Settles O37: the flag is written first and the shifted value last, and neither reads `V[Y]`. -/
theorem shiftsReportTheBitShiftedOut : Obligations.ShiftsReportTheBitShiftedOut := by
  intro x y s
  refine ⟨⟨_, rfl, ?_, fun hx => ?_, s.frame_setFlag_setV x _ _, fun _ => rfl⟩,
    ⟨_, rfl, ?_, fun hx => ?_, s.frame_setFlag_setV x _ _, fun _ => rfl⟩⟩
  · rw [State.getV_setV_self, byte_shiftRight_one_toNat]
  · rw [State.getV_vf_setFlag_setV _ _ _ hx, flagByte_shiftOutLow_toNat]
  · rw [State.getV_setV_self, byte_shiftLeft_one_toNat]
  · rw [State.getV_vf_setFlag_setV _ _ _ hx, flagByte_shiftOutHigh_toNat]

/-- Settles O38: the byte of the Step, masked, is the one write. -/
theorem randomByteIsMasked : Obligations.RandomByteIsMasked := by
  intro x nn s
  refine ⟨⟨_, rfl, s.getV_setV_self x _, fun k hk => ?_, s.frame_setV x _⟩, fun rnd hrun hawait hdec => ?_⟩
  · rw [State.getV_setV_self, BitVec.getLsbD_and, hk, Bool.and_false]
  · exact State.stepWith_rnd rnd (State.gateOpen_of_flags hrun hawait) hdec

/-- Settles O32. -/
theorem registerLoads : Obligations.RegisterLoads :=
  fun x _ _ s => ⟨⟨_, rfl, s.getV_setV_self x _, s.frame_setV x _⟩, ⟨_, rfl, s.getV_setV_self x _, s.frame_setV x _⟩,
    ⟨_, rfl, s.getV_setV_self x _, s.frame_setV x _⟩⟩

/-- Settles O33: the one write is the byte sum, which wraps. -/
theorem addImmediateWrapsWithoutFlag : Obligations.AddImmediateWrapsWithoutFlag := by
  intro x nn s
  refine ⟨_, rfl, ?_, s.frame_setV x _⟩
  rw [State.getV_setV_self, BitVec.toNat_add]

/-- Settles O34: the one write is the bitwise operation on the bytes. -/
theorem logicWritesOnlyItsDestination : Obligations.LogicWritesOnlyItsDestination := by
  intro x y s
  refine ⟨⟨_, rfl, fun k => ?_, s.frame_setV x _⟩, ⟨_, rfl, fun k => ?_, s.frame_setV x _⟩,
    ⟨_, rfl, fun k => ?_, s.frame_setV x _⟩⟩
  · rw [State.getV_setV_self, BitVec.getLsbD_or]
  · rw [State.getV_setV_self, BitVec.getLsbD_and]
  · rw [State.getV_setV_self, BitVec.getLsbD_xor]

end Sys2Proof.Machine
end

section
/-! The index register and memory (44_index_memory.md): the frames of a write to `I` and of a write to MEM, what FX1E and
FX29 leave in `I` as numbers, and the frames of the stores and of the block load. -/

namespace Sys2Proof.Machine

/-! ## Frames, one write at a time -/

section
variable {written : Component → Prop} {s t : State}

theorem Frame.setI (h : Frame written s t) (hi : written .i) (a : Word) : Frame written s (t.setI a) := by
  intro c hc
  cases c with
  | i => exact absurd hi hc
  | cfg | v | pc | sp | dt | st | cyc | running | awaitingKey | wreg | keys | stack | pixel | img | mem | rnd => exact h _ hc

theorem Frame.memWrite (h : Frame written s t) {k : Nat} (hk : ∀ a : Fin 4096, a.val = k % 4096 → written (.mem a))
    (b : Byte) : Frame written s (t.memWrite k b) := by
  intro c hc
  cases c with
  | mem a =>
    have ha : a.val % 4096 ≠ k % 4096 := fun ha => hc (hk a (by omega))
    show (t.memWrite k b).memRead a = s.memRead a
    rw [State.memRead_memWrite, if_neg ha]
    exact h _ hc
  | cfg | v | i | pc | sp | dt | st | cyc | running | awaitingKey | wreg | keys | stack | pixel | img | rnd => exact h _ hc

end

/-! ## What is left in `I` (R141, R142) -/

theorem indexSum_toNat (i : Word) (b : Byte) : (indexSum i b).toNat = (i.toNat + b.toNat) % 65536 := by
  rw [indexSum, BitVec.toNat_add, BitVec.toNat_setWidth_of_le (by decide)]

/-- The largest value is 255 * 5, so sixteen bits hold it without a mask. -/
theorem glyphAddr_toNat (b : Byte) : (glyphAddr b).toNat = b.toNat * 5 := by
  rw [glyphAddr, BitVec.toNat_ofNat]
  omega

/-! ## The frames of the stores and the load (R143 to R146) -/

section
variable {written : Component → Prop} (s : State)

/-- A write to `I` alone. -/
theorem State.frame_setI (a : Word) : Frame (fun c => c = .i) s (s.setI a) :=
  (Frame.refl (fun c => c = .i) s).setI rfl a

theorem State.frame_storeDigits (b : Byte) (hmem : ∀ k < 3, ∀ a : Fin 4096, a.val = s.ea k → written (.mem a)) :
    Frame written s (s.storeDigits b) := by
  have hdigit : ∀ k < 3, ∀ a : Fin 4096, a.val = s.ea k % 4096 → written (.mem a) :=
    fun k hk a ha => hmem k hk a (ha.trans (s.ea_mod k))
  exact (((Frame.refl written s).memWrite (hdigit 0 (by decide)) _).memWrite (hdigit 1 (by decide)) _).memWrite
    (hdigit 2 (by decide)) _

theorem frame_storeBlock (n : Nat) (hmem : ∀ k < n, ∀ a : Fin 4096, a.val = s.ea k → written (.mem a)) :
    Frame written s (storeBlock n s) := by
  induction n with
  | zero => exact Frame.refl written s
  | succ n ih =>
    have hprefix : Frame written s (storeBlock n s) := ih fun k hk => hmem k (Nat.lt_succ_of_lt hk)
    exact hprefix.memWrite (fun a ha => hmem n (Nat.lt_succ_self n) a (ha.trans (s.ea_mod n))) _

theorem frame_loadBlock (n : Nat) (hv : ∀ k < n, written (.v (Fin.ofNat 16 k))) : Frame written s (loadBlock n s) := by
  induction n with
  | zero => exact Frame.refl written s
  | succ n ih =>
    have hprefix : Frame written s (loadBlock n s) := ih fun k hk => hv k (Nat.lt_succ_of_lt hk)
    exact hprefix.setV (hv n (Nat.lt_succ_self n)) _

end

/-- The block transfers count registers by a `Nat`: below X + 1 it names a register up to X, without wrapping. -/
theorem Reg.ofNat_le_of_lt_succ {k : Nat} {x : Reg} (hk : k < x.val + 1) :
    (Fin.ofNat 16 k).val = k ∧ (Fin.ofNat 16 k : Reg) ≤ x := by
  have hval : (Fin.ofNat 16 k).val = k := Nat.mod_eq_of_lt (by omega)
  exact ⟨hval, Fin.le_def.mpr (by omega)⟩

/-! ## The statements -/

/-- Settles O40: the three addresses are distinct, so each holds the digit of its place. -/
theorem decimalDigitsAreStoredAtI : Obligations.DecimalDigitsAreStoredAtI := by
  intro x s
  have hhundreds : (s.getV x).toNat / 100 % 10 = (s.getV x).toNat / 100 := Nat.mod_eq_of_lt (by omega)
  have hdigit : ∀ k < 3, ((s.storeDigits (s.getV x)).memRead (s.i.toNat + k)).toNat =
      (s.getV x).toNat / 10 ^ (2 - k) % 10 := fun k hk => s.memRead_storeDigits_stored _ _ hk rfl
  refine ⟨_, exec_ldBVx x s, ?_, ?_, ?_, s.frame_storeDigits _ fun k hk a ha => ⟨a, k, hk, rfl, ha⟩⟩
  · exact (hdigit 0 (by decide)).trans hhundreds
  · simpa using hdigit 1 (by decide)
  · simpa using hdigit 2 (by decide)

/-- Settles O41: at most sixteen addresses are written, so each holds the register of its place. -/
theorem blockStoreWritesV0ToVX : Obligations.BlockStoreWritesV0ToVX := by
  intro x s
  refine ⟨_, rfl, fun k hk => memRead_storeBlock_stored s _ hk rfl, frame_storeBlock s _ fun k hk a ha => ?_⟩
  obtain ⟨hval, hle⟩ := Reg.ofNat_le_of_lt_succ hk
  exact ⟨a, Fin.ofNat 16 k, hle, rfl, by rw [hval]; exact ha⟩

/-- Settles O42: the registers counted are those up to X, and MEM is read as it was before the load. -/
theorem blockLoadReadsV0ToVX : Obligations.BlockLoadReadsV0ToVX := by
  intro x s
  refine ⟨_, rfl, fun k hk => ?_, frame_loadBlock s _ fun k hk => ⟨_, (Reg.ofNat_le_of_lt_succ hk).2, rfl⟩⟩
  rw [getV_loadBlock s _ x.isLt, if_pos (Nat.lt_succ_of_le hk)]

/-- Settles O39: each instruction is one write to `I`. -/
theorem indexRegisterWriters : Obligations.IndexRegisterWriters :=
  fun x nnn s => ⟨⟨_, rfl, addrWord_toNat nnn, s.frame_setI _⟩, ⟨_, rfl, indexSum_toNat _ _, s.frame_setI _⟩,
    ⟨_, rfl, glyphAddr_toNat (s.getV x), s.frame_setI _⟩⟩

end Sys2Proof.Machine
end

section
/-! The display (45_display.md): the frame of a framebuffer write, what a draw leaves at every pixel and in VF, and two draws of
one sprite in a row. -/

namespace Sys2Proof.Machine

/-! ## Framebuffer writes: the frame -/

section
variable {written : Component → Prop} {s t : State}

theorem Frame.setFB (h : Frame written s t) {m : Memory}
    (hm : ∀ (px : Fin 64) (py : Fin 32), ¬ written (.pixel px py) → pixelOf m px py = s.pixel px py) :
    Frame written s (t.setFB m) := by
  intro c hc
  cases c with
  | pixel px py => exact hm px py hc
  | cfg | v | i | pc | sp | dt | st | cyc | running | awaitingKey | wreg | keys | stack | img | mem | rnd => exact h _ hc

end

/-! ## Bytes of the display and of its flag -/

theorem flagByte_eq_one_iff (c : Bool) : flagByte c = 1 ↔ c = true := by
  cases c <;> decide

theorem flagByte_eq_zero_iff (c : Bool) : flagByte c = 0 ↔ c = false := by
  cases c <;> decide

section
variable {p : Byte} (hp : p = 0x00 ∨ p = 0xFF)
include hp

theorem toggled_toggled : toggled (toggled p) = p := by
  obtain rfl | rfl := hp <;> rfl

theorem toggled_eq_xor : toggled p = p ^^^ 0xFF := by
  obtain rfl | rfl := hp <;> rfl

theorem toggled_eq_on_iff : toggled p = 0xFF ↔ p = 0x00 := by
  obtain rfl | rfl := hp <;> decide

end

/-! ## One draw (R152) -/

/-- The state after DXYN: the blitted framebuffer, then the collision flag. -/
def State.afterDraw (s : State) (x y : Reg) (n : Nibble) : State :=
  (s.setFB (s.drawn x y n).1).setFlag (s.drawn x y n).2

theorem exec_drw (x y : Reg) (n : Nibble) (s : State) : exec (.drw x y n) s = .next (s.afterDraw x y n) := rfl

/-- The pixels a sprite touches are those under the 1 bits of the blit: `I + r` and the coordinates wrap alike in both. -/
theorem spriteTouches_iff_spriteBit (s : State) (x0 y0 : Byte) (n : Nibble) (px : Fin 64) (py : Fin 32) :
    SpriteTouches s x0 y0 n px py ↔
      ∃ j k, j < n.toNat ∧ k < 8 ∧ spriteBit (s.spriteRow j) k = true ∧
        px.val % 64 = (x0.toNat + k) % 64 ∧ py.val % 32 = (y0.toNat + j) % 32 := by
  simp only [SpriteTouches, spriteBit, State.spriteRow, State.ea, State.memRead_mod, Nat.mod_eq_of_lt px.isLt,
    Nat.mod_eq_of_lt py.isLt, eq_comm]

theorem Nibble.toNat_le_screenRows (n : Nibble) : n.toNat ≤ 32 := n.isLt.le.trans (by decide)

section
variable (s : State) (x y : Reg) (n : Nibble)

section
variable {px : Fin 64} {py : Fin 32}

theorem State.pixel_afterDraw_touched (h : SpriteTouches s (s.getV x) (s.getV y) n px py) :
    (s.afterDraw x y n).pixel px py = toggled (s.pixel px py) :=
  (pixelOf_blitRows _ _ _ _ (Nibble.toNat_le_screenRows n) (s.fb, false) px py).1
    ((spriteTouches_iff_spriteBit s _ _ n px py).1 h)

theorem State.pixel_afterDraw_untouched (h : ¬ SpriteTouches s (s.getV x) (s.getV y) n px py) :
    (s.afterDraw x y n).pixel px py = s.pixel px py :=
  (pixelOf_blitRows _ _ _ _ (Nibble.toNat_le_screenRows n) (s.fb, false) px py).2
    (mt (spriteTouches_iff_spriteBit s _ _ n px py).2 h)

end

/-- The blit names a pixel by any coordinates, the collision by its wrapped ones. -/
theorem State.drawn_collision_iff :
    (s.drawn x y n).2 = true ↔
      ∃ (px : Fin 64) (py : Fin 32), SpriteTouches s (s.getV x) (s.getV y) n px py ∧ s.pixel px py = 0xFF := by
  rw [State.drawn, blitRows_hit _ _ _ _ (Nibble.toNat_le_screenRows n)]
  simp only [spriteTouches_iff_spriteBit, Bool.false_eq_true, false_or]
  constructor
  · rintro ⟨j, k, hj, hk, hbit, hon⟩
    refine ⟨Fin.ofNat 64 ((s.getV x).toNat + k), Fin.ofNat 32 ((s.getV y).toNat + j),
      ⟨j, k, hj, hk, hbit, Nat.mod_mod _ _, Nat.mod_mod _ _⟩, ?_⟩
    exact (pixelOf_wrap s.fb _ _ _ _ (Nat.mod_mod _ _) (Nat.mod_mod _ _)).trans hon
  · rintro ⟨px, py, ⟨j, k, hj, hk, hbit, hc, hr⟩, hon⟩
    exact ⟨j, k, hj, hk, hbit, (pixelOf_wrap s.fb _ _ _ _ hc.symm hr.symm).trans hon⟩

theorem State.getV_vf_afterDraw : (s.afterDraw x y n).getV 15 = flagByte (s.drawn x y n).2 := State.getV_vf_setFlag _ _

theorem State.getV_vf_afterDraw_eq_one_iff :
    (s.afterDraw x y n).getV 15 = 1 ↔
      ∃ (px : Fin 64) (py : Fin 32), SpriteTouches s (s.getV x) (s.getV y) n px py ∧ s.pixel px py = 0xFF := by
  rw [State.getV_vf_afterDraw, flagByte_eq_one_iff, State.drawn_collision_iff]

theorem State.getV_vf_afterDraw_eq_zero_iff :
    (s.afterDraw x y n).getV 15 = 0 ↔
      ¬ ∃ (px : Fin 64) (py : Fin 32), SpriteTouches s (s.getV x) (s.getV y) n px py ∧ s.pixel px py = 0xFF := by
  rw [State.getV_vf_afterDraw, flagByte_eq_zero_iff, ← Bool.not_eq_true, State.drawn_collision_iff]

theorem State.frame_afterDraw :
    Frame (fun c => c = .v 15 ∨
      ∃ (px : Fin 64) (py : Fin 32), SpriteTouches s (s.getV x) (s.getV y) n px py ∧ c = .pixel px py) s
      (s.afterDraw x y n) :=
  ((Frame.refl _ s).setFB fun px py hc =>
    s.pixel_afterDraw_untouched x y n fun h => hc (.inr ⟨px, py, h, rfl⟩)).setV (.inl rfl) _

/-! ## Two draws of one sprite (R153) -/

/-- A draw changes neither `I` nor MEM, so from registers that hold the same coordinates the next draw touches the same
pixels. -/
theorem State.spriteTouches_afterDraw_iff {x' y' : Reg} (hx : (s.afterDraw x y n).getV x' = s.getV x)
    (hy : (s.afterDraw x y n).getV y' = s.getV y) (px : Fin 64) (py : Fin 32) :
    SpriteTouches (s.afterDraw x y n) ((s.afterDraw x y n).getV x') ((s.afterDraw x y n).getV y') n px py ↔
      SpriteTouches s (s.getV x) (s.getV y) n px py := by
  rw [hx, hy]
  exact Iff.rfl

end

/-! ## The statements -/

/-- Settles O44: the blit's pixels are those the sprite touches, and its flag is their collision. -/
theorem drawXorsTheSpriteAndReportsCollision : Obligations.DrawXorsTheSpriteAndReportsCollision :=
  fun x y n s => ⟨_, exec_drw x y n s, fun _ _ => s.pixel_afterDraw_touched x y n,
    (s.getV_vf_afterDraw_eq_one_iff x y n).2, (s.getV_vf_afterDraw_eq_zero_iff x y n).2, s.frame_afterDraw x y n⟩

/-- Settles O45: the second draw touches the same pixels, and on a screen of 0x00 and 0xFF toggling is its own inverse. -/
theorem doubleDrawRestoresTheScreen : Obligations.DoubleDrawRestoresTheScreen := by
  intro x y x' y' n s t hscreen ht hx hy
  obtain rfl : s.afterDraw x y n = t := Host.Outcome.next.inj ht
  have hsame := s.spriteTouches_afterDraw_iff x y n hx hy
  have hfirst := s.getV_vf_afterDraw_eq_one_iff x y n
  have hsecond : ((s.afterDraw x y n).afterDraw x' y' n).getV 15 = 1 ↔
      ∃ px py, SpriteTouches s (s.getV x) (s.getV y) n px py ∧ s.pixel px py = 0x00 := by
    rw [State.getV_vf_afterDraw_eq_one_iff]
    refine exists₂_congr fun px py => (and_congr_left' (hsame px py)).trans (and_congr_right fun h => ?_)
    rw [s.pixel_afterDraw_touched x y n h, toggled_eq_on_iff (hscreen px py)]
  refine ⟨_, exec_drw x' y' n _, fun px py => ?_, fun px py h => ?_, hfirst, hsecond, fun ⟨px, py, h⟩ => ?_⟩
  · by_cases h : SpriteTouches s (s.getV x) (s.getV y) n px py
    · rw [State.pixel_afterDraw_touched _ _ _ _ ((hsame px py).2 h), s.pixel_afterDraw_touched x y n h,
        toggled_toggled (hscreen px py)]
    · rw [State.pixel_afterDraw_untouched _ _ _ _ (mt (hsame px py).1 h), s.pixel_afterDraw_untouched x y n h]
  · rw [s.pixel_afterDraw_touched x y n h, toggled_eq_xor (hscreen px py)]
  · obtain hoff | hon := hscreen px py
    · exact .inr (hsecond.2 ⟨px, py, h, hoff⟩)
    · exact .inl (hfirst.2 ⟨px, py, h, hon⟩)

/-- Settles O43: a framebuffer that lists nothing reads as 0x00 everywhere. -/
theorem clearTurnsEveryPixelOff : Obligations.ClearTurnsEveryPixelOff :=
  fun s => ⟨_, rfl, fun px py => pixelOf_nil px py,
    (Frame.refl _ s).setFB fun px py hc => absurd ⟨px, py, rfl⟩ hc⟩

end Sys2Proof.Machine
end

section
/-! Keypad and timers (46_keypad_timers.md): the key a keypad skip tests, and the frames of the timer writes and of the opened
wait. -/

namespace Sys2Proof.Machine

/-! ## Frames, one write at a time -/

section
variable {written : Component → Prop} {s t : State}

theorem Frame.setDT (h : Frame written s t) (hdt : written .dt) (b : Byte) : Frame written s (t.setDT b) := by
  intro c hc
  cases c with
  | dt => exact absurd hdt hc
  | cfg | v | i | pc | sp | st | cyc | running | awaitingKey | wreg | keys | stack | pixel | img | mem | rnd => exact h _ hc

theorem Frame.setST (h : Frame written s t) (hst : written .st) (b : Byte) : Frame written s (t.setST b) := by
  intro c hc
  cases c with
  | st => exact absurd hst hc
  | cfg | v | i | pc | sp | dt | cyc | running | awaitingKey | wreg | keys | stack | pixel | img | mem | rnd => exact h _ hc

theorem Frame.enterAwait (h : Frame written s t) (hawait : written .awaitingKey) (hwreg : written .wreg) (x : Reg) :
    Frame written s (t.enterAwait x) := by
  intro c hc
  cases c with
  | awaitingKey => exact absurd hawait hc
  | wreg => exact absurd hwreg hc
  | cfg | v | i | pc | sp | dt | st | cyc | running | keys | stack | pixel | img | mem | rnd => exact h _ hc

end

/-! ## The tested key (R161, R162) -/

theorem State.keyPressed_keyIndex (s : State) (b : Byte) : s.keyPressed (keyIndex b) = s.keys.getLsbD (b.toNat % 16) := rfl

/-! ## The statements -/

/-- Settles O30: EX9E is `skipIf` of the tested key, EXA1 `skipIf` of its negation. -/
theorem keypadSkipsTestTheKeyModulo16 : Obligations.KeypadSkipsTestTheKeyModulo16 := by
  intro x s
  refine ⟨⟨_, rfl, ?_, s.frame_skipIf _⟩, ⟨_, rfl, ?_, s.frame_skipIf _⟩⟩
  · rw [State.skipIf_pc_toNat, State.keyPressed_keyIndex]
  · simp only [State.skipIf_pc_toNat, State.keyPressed_keyIndex, Bool.not_eq_true', ← Bool.not_eq_true,
      ite_not]

/-- Settles O46: FX0A opens the wait, which writes `awaitingKey` and `WREG` alone. -/
theorem waitForKeyOpensTheWait : Obligations.WaitForKeyOpensTheWait :=
  fun x s => ⟨_, rfl, s.enterAwait_awaitingKey x, s.enterAwait_wreg x,
    (Frame.refl _ s).enterAwait (.inl rfl) (.inr rfl) x⟩

/-- Settles O47: each instruction is one write to its timer. -/
theorem timerWrites : Obligations.TimerWrites :=
  fun x s => ⟨⟨_, rfl, s.setDT_dt (s.getV x), (Frame.refl (fun c => c = .dt) s).setDT rfl _⟩,
    ⟨_, rfl, s.setST_st (s.getV x), (Frame.refl (fun c => c = .st) s).setST rfl _⟩⟩

end Sys2Proof.Machine
end

section
/-! The host interface (47_host_interface.md): the frames of the keypad write and of a delivery, the key a host tick delivers,
and requests served one after another. -/

namespace Sys2Proof.Machine

/-! ## Frames, one write at a time -/

section
variable {written : Component → Prop} {s t : State}

theorem Frame.setKeys (h : Frame written s t) (hkeys : written .keys) (k : Word) : Frame written s (t.setKeys k) := by
  intro c hc
  cases c with
  | keys => exact absurd hkeys hc
  | cfg | v | i | pc | sp | dt | st | cyc | running | awaitingKey | wreg | stack | pixel | img | mem | rnd => exact h _ hc

theorem Frame.leaveAwait (h : Frame written s t) (hawait : written .awaitingKey) : Frame written s t.leaveAwait := by
  intro c hc
  cases c with
  | awaitingKey => exact absurd hawait hc
  | cfg | v | i | pc | sp | dt | st | cyc | running | wreg | keys | stack | pixel | img | mem | rnd => exact h _ hc

end

/-! ## The delivery (R174) -/

theorem State.setAwaitedKey_of_awaiting {s : State} (h : s.awaitingKey = true) (index : Nat) :
    s.setAwaitedKey index = (s.setV s.wreg (BitVec.ofNat 8 (index % 16))).leaveAwait := if_pos h

theorem State.setAwaitedKey_of_not_awaiting {s : State} (h : s.awaitingKey = false) (index : Nat) :
    s.setAwaitedKey index = s := if_neg (by rw [h]; decide)

/-! ## The key a host tick delivers (R175, R177) -/

/-- R175: the key found is pressed, and no lower one is. -/
theorem State.firstPressed_eq_some {s : State} {j : Nat} (hj : s.keyPressed j = true)
    (hlow : ∀ l < j, s.keyPressed l = false) : s.firstPressed = some j := by
  have hlt : j < 16 := BitVec.lt_of_getLsbD hj
  rw [State.firstPressed, List.find?_range_eq_some]
  exact ⟨hj, List.mem_range.2 hlt, fun l hl => by rw [hlow l hl]; rfl⟩

theorem State.firstPressed_eq_none {s : State} (h : s.keys = 0) : s.firstPressed = none := by
  rw [State.firstPressed, List.find?_eq_none]
  intro l _
  rw [State.keyPressed, h]
  exact Bool.eq_false_iff.1 BitVec.getLsbD_zero

/-- The tick needs no case of its own for a core that does not wait, since a delivery then changes nothing (D13). -/
theorem State.hostTick_eq (s : State) (k : Word) (rnds : List Byte) :
    s.hostTick k rnds = ((s.setKeys k).firstPressed.elim (s.setKeys k) (s.setKeys k).setAwaitedKey).run rnds := by
  unfold State.hostTick
  dsimp only
  split
  · next j hj =>
    rw [hj, Option.elim_some, State.readAwaiting]
    split
    · rfl
    · next hwait => rw [State.setAwaitedKey_of_not_awaiting (Bool.eq_false_iff.2 hwait)]
  · next hnone => rw [hnone, Option.elim_none]

/-! ## Requests one after another (R170, R183) -/

section
variable {s t : State}

theorem State.transactAll_cons {a : Transaction} (h : s.transact a = .next t) (rest : List Transaction) :
    s.transactAll (a :: rest) = t.transactAll rest := by
  rw [State.transactAll, h]

theorem State.transactAll_singleton (s : State) (a : Transaction) : s.transactAll [a] = s.transact a := by
  rw [State.transactAll]
  cases s.transact a <;> rfl

theorem State.transactAll_append {first : List Transaction} (h : s.transactAll first = .next t)
    (second : List Transaction) : s.transactAll (first ++ second) = t.transactAll second := by
  induction first generalizing s with
  | nil => rw [Host.Outcome.next.inj h, List.nil_append]
  | cons a rest ih =>
    rw [State.transactAll] at h
    split at h
    · next u hu => rw [List.cons_append, State.transactAll_cons hu, ih h]
    · cases h
    · cases h

end

/-! ## The statements -/

/-- Settles O53: `hostTick_eq`, with the key found: none where no key is pressed, the lowest pressed one otherwise. -/
theorem hostTickDeliversTheLowestPressedKey : Obligations.HostTickDeliversTheLowestPressedKey := by
  intro s k rnds
  rw [State.hostTick_eq]
  refine ⟨fun hwait => ?_, fun hk => ?_, fun j _ hj hlow => ?_⟩
  · have hkeep : ∀ j, (s.setKeys k).setAwaitedKey j = s.setKeys k := State.setAwaitedKey_of_not_awaiting hwait
    cases (s.setKeys k).firstPressed with
    | none => rfl
    | some j => rw [Option.elim_some, hkeep]
  · rw [State.firstPressed_eq_none (s := s.setKeys k) hk, Option.elim_none]
  · rw [State.firstPressed_eq_some (s := s.setKeys k) hj hlow, Option.elim_some]

/-- Settles O51: a delivery is two writes where the core waits, and none where it does not. -/
theorem deliveredKeyGoesToThePendingRegister : Obligations.DeliveredKeyGoesToThePendingRegister := by
  intro s index
  refine ⟨fun hwait => ⟨_, congrArg _ (State.setAwaitedKey_of_awaiting hwait index), ?_, rfl, ?_⟩,
    fun hwait => congrArg _ (State.setAwaitedKey_of_not_awaiting hwait index)⟩
  · rw [State.getV_leaveAwait, State.getV_setV_self, BitVec.toNat_ofNat]
    omega
  · exact ((Frame.refl _ s).setV (.inl rfl) _).leaveAwait (.inr rfl)

/-- Settles O52: the keypad write is one write, and the reads answer the state they read. -/
theorem keypadWriteAndReads : Obligations.KeypadWriteAndReads :=
  fun s k _ _ => ⟨⟨s.setKeys k, rfl, fun _ => rfl, (Frame.refl (fun c => c = .keys) s).setKeys rfl k⟩,
    rfl, rfl, rfl, rfl, rfl, rfl⟩

/-- Settles O59: each request but the last answers the state the next one is served from, asserted or not. -/
theorem simultaneousRequestsAreServedInOrder : Obligations.SimultaneousRequestsAreServedInOrder := by
  intro s r
  extract_lets s1 s2 s3 s4
  have hrst : s.transactAll (if r.rst then [.reset] else []) = .next s1 := by
    unfold s1
    cases r.rst <;> rfl
  have hrom : s1.transactAll (r.romCommit.toList.map .loadROM) = .next s2 := by
    unfold s2
    cases r.romCommit <;> rfl
  have hkeys : s2.transactAll (r.keysWe.toList.map .setKeys) = .next s3 := by
    unfold s3
    cases r.keysWe <;> rfl
  have hakey : s3.transactAll (r.akeyValid.toList.map fun k => .setAwaitedKey k.toNat) = .next s4 := by
    unfold s4
    cases r.akeyValid <;> rfl
  simp only [State.serve, PortRequests.transactions, List.append_assoc]
  rw [State.transactAll_append hrst, State.transactAll_append hrom, State.transactAll_append hkeys,
    State.transactAll_append hakey]
  cases r.step with
  | none => rfl
  | some rnd => exact s4.transactAll_singleton (.step rnd)

/-- Settles O60: quotient and remainder of the index by 64 are the row and the column. -/
theorem linearReadPortIsRowMajor : Obligations.LinearReadPortIsRowMajor := by
  intro s x y
  have haddr : (BitVec.ofNat 11 (y.val * 64 + x.val)).toNat = y.val * 64 + x.val := by
    rw [BitVec.toNat_ofNat]
    omega
  have hcolumn : (y.val * 64 + x.val) % 64 = x.val := by omega
  have hrow : (y.val * 64 + x.val) / 64 = y.val := by omega
  rw [State.fbData, haddr, hcolumn, hrow, State.readFB]

end Sys2Proof.Machine
end

section
/-! The exceptions' family (60_exceptions.md): every Step completes, the tick of a tenth Step, and the idle wait for a key. -/

namespace Sys2Proof.Machine

/-! ## Completion (R185) -/

theorem exists_exec_eq (i : Instr) (s : State) : ∃ t, exec i s = .next t := by
  obtain ⟨t, ht, -⟩ := exec_effect i s
  exact ⟨t, ht⟩

theorem exists_step_eq (s : State) : ∃ t, step s = .next t := by
  cases hg : s.gateOpen with
  | false => exact ⟨s, step_of_gateClosed s hg⟩
  | true =>
    obtain ⟨u, hu⟩ := exists_exec_eq (decode s.fetchWord) s.preAdvance
    exact ⟨u.endStep, step_of_gateOpen s hg u hu⟩

/-! ## The tenth Step (R197) -/

/-- The tick of a tenth Step decrements the timers as the instruction left them. -/
theorem tick_of_tenthStep {s u : State} {i : Instr} (hg : s.gateOpen = true) (hcyc : s.cyc = 90)
    (hdec : decode s.fetchWord = i) (hu : exec i s.preAdvance = .next u) :
    step s = .next u.endStep ∧ u.endStep.dt.toNat = u.dt.toNat - 1 ∧ u.endStep.st.toNat = u.st.toNat - 1 := by
  have hcount : u.cyc = 90 := (cyc_of_exec hu).trans hcyc
  obtain ⟨hdt, hst⟩ := u.endStep_timers_of_ge (by omega)
  rw [hdt, hst]
  exact ⟨step_of_gateOpen s hg u (hdec ▸ hu), decTimer_toNat _, decTimer_toNat _⟩

/-! ## The statements -/

/-- Settles O8: a Step is one instruction at most, and each completes. -/
theorem everyStepAndInstructionCompletes : Obligations.EveryStepAndInstructionCompletes :=
  ⟨exists_step_eq, exists_exec_eq⟩

/-- Settles O11: each of the three instructions is one write, and the tick decrements what that write left. -/
theorem tickComesAfterTheInstructionsWrites : Obligations.TickComesAfterTheInstructionsWrites := by
  intro s x hrun hawait hcyc
  have hg : s.gateOpen = true := State.gateOpen_of_flags hrun hawait
  refine ⟨fun hdec => ?_, fun hdec => ?_, fun hdec => ?_⟩
  · obtain ⟨hstep, hdt, -⟩ := tick_of_tenthStep (u := s.preAdvance.setDT (s.getV x)) hg hcyc hdec rfl
    exact ⟨_, hstep, hdt⟩
  · obtain ⟨hstep, -, hst⟩ := tick_of_tenthStep (u := s.preAdvance.setST (s.getV x)) hg hcyc hdec rfl
    exact ⟨_, hstep, hst⟩
  · obtain ⟨hstep, hdt, -⟩ := tick_of_tenthStep (u := s.preAdvance.setV x s.dt) hg hcyc hdec rfl
    exact ⟨_, hstep, by rw [State.getV_endStep, State.getV_setV_self], hdt⟩

/-- Settles O15: the gate is closed before and after the keypad write, and the delivery opens it. -/
theorem awaitingCoreIdlesUntilAKeyIsDelivered : Obligations.AwaitingCoreIdlesUntilAKeyIsDelivered := by
  intro s k rnds index hrun hawait
  have hclosed : s.gateOpen = false := State.gateOpen_eq_false_iff.2 (.inr hawait)
  have hkeyed : (s.setKeys k).gateOpen = false := hclosed
  obtain ⟨delivered, -⟩ := deliveredKeyGoesToThePendingRegister s index
  obtain ⟨t, ht, hkey, htawait, -⟩ := delivered hawait
  obtain rfl : s.setAwaitedKey index = t := Host.Outcome.next.inj ht
  have htrun : (s.setAwaitedKey index).running = true := by
    rw [State.setAwaitedKey_of_awaiting hawait]
    exact hrun
  exact ⟨State.run_of_gateClosed hclosed rnds, State.run_of_gateClosed hkeyed rnds,
    State.gateOpen_of_flags htrun htawait, hkey⟩

end Sys2Proof.Machine
end

section
/-! Reset and hazards (70_reset_and_hazards.md): what Reset, PowerOn and LoadROM leave, and the jump to itself. -/

namespace Sys2Proof.Machine

/-! ## MEM after a Reset, region by region (R211, R212) -/

section
variable (s : State)

@[simp] theorem State.getV_resetCore (x : Reg) : s.resetCore.getV x = 0 :=
  Vector.getElem_replicate x.isLt

@[simp] theorem State.imageByte_resetCore (j : Nat) : s.resetCore.imageByte j = s.imageByte j := rfl

theorem State.memRead_resetCore_font (j : Fin 80) : s.resetCore.memRead j = s.cfg.font[j] := by
  obtain ⟨font, -, -, -⟩ := read_resetMem s.cfg.powerOnByte s.img s.mem j
  rw [State.memRead, Nat.mod_eq_of_lt (by omega)]
  exact (font j.isLt).trans (dif_pos j.isLt)

theorem State.memRead_resetCore_unnamed {a : Nat} (ha : (0x050 ≤ a ∧ a < 0x200) ∨ (0xE00 ≤ a ∧ a < 0x1000)) :
    s.resetCore.memRead a = s.memRead a := by
  obtain ⟨-, low, -, high⟩ := read_resetMem s.cfg.powerOnByte s.img s.mem a
  rw [State.memRead, State.memRead, Nat.mod_eq_of_lt (by omega)]
  rcases ha with ⟨h050, h200⟩ | ⟨hE00, -⟩
  · exact low h050 h200
  · exact high hE00

end

/-! ## A second Reset (R211) -/

section
variable {img mem : Memory}

/-- The cells of the image stand in the program region. -/
theorem key_of_mem_programCells {c : Host.Cell}
    (hc : c ∈ (img.filter (fun c => c.1 < 0xC00)).map (fun c => (0x200 + c.1, c.2))) : 0x200 ≤ c.1 ∧ c.1 < 0xE00 := by
  obtain ⟨e, he, rfl⟩ := List.mem_map.1 hc
  have hlt := of_decide_eq_true (List.mem_filter.1 he).2
  exact ⟨Nat.le_add_right _ _, Nat.add_lt_add_left hlt 0x200⟩

/-- Of the cells Reset leaves, those below the program region are the ones it kept there. -/
theorem filter_low_resetMem : (resetMem img mem).filter (fun c => 0x050 ≤ c.1 && c.1 < 0x200) =
    mem.filter (fun c => 0x050 ≤ c.1 && c.1 < 0x200) := by
  have hprogram : ∀ c ∈ (img.filter (fun c => c.1 < 0xC00)).map (fun c => (0x200 + c.1, c.2)),
      ¬ (0x050 ≤ c.1 && c.1 < 0x200) = true := by
    intro c hc
    obtain ⟨h200, -⟩ := key_of_mem_programCells hc
    simp [Nat.not_lt.2 h200]
  have hhigh : ∀ c ∈ mem.filter (fun c => 0xE00 ≤ c.1), ¬ (0x050 ≤ c.1 && c.1 < 0x200) = true := by
    intro c hc
    have hE00 := of_decide_eq_true (List.mem_filter.1 hc).2
    simp [Nat.not_lt.2 (show 0x200 ≤ c.1 by omega)]
  rw [resetMem, List.filter_append, List.filter_append, List.filter_eq_nil_iff.2 hprogram,
    List.filter_eq_nil_iff.2 hhigh, List.append_nil, List.append_nil, List.filter_filter]
  simp only [Bool.and_self]

/-- Of the cells Reset leaves, those above the program region are the ones it kept there. -/
theorem filter_high_resetMem : (resetMem img mem).filter (fun c => 0xE00 ≤ c.1) = mem.filter (fun c => 0xE00 ≤ c.1) := by
  have hlow : ∀ c ∈ mem.filter (fun c => 0x050 ≤ c.1 && c.1 < 0x200), ¬ decide (0xE00 ≤ c.1) = true := by
    intro c hc
    have hregion := (List.mem_filter.1 hc).2
    simp only [Bool.and_eq_true, decide_eq_true_eq] at hregion ⊢
    omega
  have hprogram : ∀ c ∈ (img.filter (fun c => c.1 < 0xC00)).map (fun c => (0x200 + c.1, c.2)),
      ¬ decide (0xE00 ≤ c.1) = true := by
    intro c hc
    obtain ⟨-, hE00⟩ := key_of_mem_programCells hc
    simp [hE00]
  rw [resetMem, List.filter_append, List.filter_append, List.filter_eq_nil_iff.2 hlow,
    List.filter_eq_nil_iff.2 hprogram, List.nil_append, List.nil_append, List.filter_filter]
  simp only [Bool.and_self]

theorem resetMem_resetMem : resetMem img (resetMem img mem) = resetMem img mem := by
  rw [resetMem, filter_low_resetMem, filter_high_resetMem]
  rfl

end

/-! ## PowerOn (R210, 10_state.md R46) -/

/-- With no image and nothing listed above the font region, Reset lists nothing. -/
theorem resetMem_of_key_lt {mem : Memory} (h : ∀ c ∈ mem, c.1 < 0x050) : resetMem [] mem = [] := by
  have hlow : mem.filter (fun c => 0x050 ≤ c.1 && c.1 < 0x200) = [] :=
    List.filter_eq_nil_iff.2 fun c hc => by simp [Nat.not_le.2 (h c hc)]
  have hhigh : mem.filter (fun c => 0xE00 ≤ c.1) = [] :=
    List.filter_eq_nil_iff.2 fun c hc => by simp [(h c hc).trans (show 0x050 < 0xE00 by decide)]
  rw [resetMem, hlow, hhigh]
  rfl

/-- Only the configuration tells one power-on from another: all of MEM is back at its unlisted bytes. -/
theorem State.powerOn_eq (c : Config) : State.powerOn c = { State.reset with cfg := c } := by
  have hmem : resetMem [] (zeroState c).mem = [] := by
    refine resetMem_of_key_lt fun e he => ?_
    obtain ⟨a, ha, rfl⟩ := List.mem_map.1 he
    exact List.mem_range.1 (List.mem_filter.1 ha).1
  exact congrArg (fun m => { State.reset with cfg := c, mem := m }) hmem

/-! ## LoadROM (R213 to R215) -/

section
variable {s : State} {bytes : List Byte}

theorem State.loadROM_of_le (h : bytes.length ≤ 0xC00) :
    s.loadROM bytes = ({ s with img := imageOf bytes }.resetCore, true) :=
  if_neg (Nat.not_lt.2 h)

theorem State.loadROM_of_gt (h : 0xC00 < bytes.length) : s.loadROM bytes = (s, false) := if_pos h

end

/-! ## The jump to itself (R220) -/

/-- The jump writes to `PC` the address the pre-advance took from it, so only the end of the Step is left. -/
theorem step_of_atSelfJump {s : State} (h : s.atSelfJump) : step s = .next s.endStep := by
  obtain ⟨hmode, nnn, hword, hpc⟩ := h
  obtain ⟨hrun, hawait⟩ := State.mode_eq_run_iff.1 hmode
  have hdec : decode s.fetchWord = .jp nnn := by
    rw [hword]
    exact decode_encode (.jp nnn) rfl
  have htarget : addrWord nnn = s.pc := BitVec.eq_of_toNat_eq ((addrWord_toNat nnn).trans hpc.symm)
  have hexec : exec (decode s.fetchWord) s.preAdvance = .next s := by
    rw [hdec]
    show Host.Outcome.next (s.preAdvance.setPC (addrWord nnn)) = .next s
    rw [htarget]
    rfl
  exact step_of_gateOpen s (State.gateOpen_of_flags hrun hawait) s hexec

@[simp] theorem State.fetchWord_endStep (s : State) : s.endStep.fetchWord = s.fetchWord := by
  rw [State.fetchWord, State.fetchWord, State.memRead_endStep, State.memRead_endStep, State.endStep_pc]

@[simp] theorem State.atSelfJump_endStep (s : State) : s.endStep.atSelfJump ↔ s.atSelfJump := by
  rw [State.atSelfJump, State.atSelfJump, State.mode_endStep, State.fetchWord_endStep, State.endStep_pc]

/-! ## The statements -/

/-- Settles O48: the listed components by evaluation, MEM region by region. -/
theorem resetWritesTheListedStateOnly : Obligations.ResetWritesTheListedStateOnly :=
  fun s => ⟨s.resetCore, rfl, s.getV_resetCore, fun _ => rfl, rfl, rfl, rfl, rfl, rfl, rfl, rfl, rfl, rfl, fun _ _ => rfl,
    s.memRead_resetCore_font, s.memRead_resetCore_program, rfl, rfl, s.imageByte_resetCore,
    fun _ => s.memRead_resetCore_unnamed⟩

/-- Settles O49: what Reset keeps of MEM is the same after a Reset, and every other component it writes is a constant. -/
theorem resetIsIdempotent : Obligations.ResetIsIdempotent :=
  fun s => congrArg (fun m => { s.resetCore with mem := m }) resetMem_resetMem

/-- Settles O50: the Reset of a successful load copies the new image to the program region. -/
theorem loadStoresTheImageOrFails : Obligations.LoadStoresTheImageOrFails := by
  intro s bytes
  refine ⟨fun hle => ?_, fun hlt => ?_⟩
  · have himage : ∀ j, ({ s with img := imageOf bytes } : State).resetCore.imageByte j = bytes.getD j 0 :=
      imageByte_imageOf bytes
    refine ⟨{ s with img := imageOf bytes }.resetCore, ?_, ?_, fun j _ => himage j, fun j hj => ?_, rfl⟩
    · rw [State.transact, State.loadROM_of_le hle]
    · rw [State.response, State.loadROM_of_le hle]
    · rw [State.memRead_resetCore_program _ j hj, himage]
  · rw [State.transact, State.response, State.loadROM_of_gt hlt]
    exact ⟨rfl, rfl⟩

/-- Settles O54: the state after power-on lists nothing in any storage space. -/
theorem powerOnGivesTheListedState : Obligations.PowerOnGivesTheListedState := by
  intro c s
  refine ⟨{ State.reset with cfg := c }, congrArg Host.Outcome.next (State.powerOn_eq c), rfl,
    (zeroState c).getV_resetCore, rfl, rfl, rfl, rfl, rfl, rfl, rfl, rfl, rfl, rfl, fun _ => rfl, fun a => ?_, fun _ _ => rfl,
    fun _ => rfl⟩
  show c.powerOnByte (a.val % 4096) = _
  rw [Nat.mod_eq_of_lt a.isLt]
  rfl

/-- Settles O55, as one instance of the state after power-on. -/
theorem resetStateIsPowerOn : Obligations.ResetStateIsPowerOn :=
  (State.powerOn_eq { legacy := false, font := customaryFont }).symm

/-- Settles O16: the Step is its end alone, which moves no part the self-jump is read from. -/
theorem selfJumpChangesOnlyTheCounters : Obligations.SelfJumpChangesOnlyTheCounters :=
  fun s h => ⟨s.endStep, step_of_atSelfJump h, s.atSelfJump_endStep.2 h,
    (Frame.refl _ s).endStep (by simp) (by simp) (by simp) (by simp)⟩

end Sys2Proof.Machine
end
